-- ==== Sys2Proof/Word.lean ====
section
/-! DEFINITION. The words of the block: bytes, 32-bit registers, 64-bit counters, and the Pixel (spec/10_state.md R21). -/

namespace Sys2Proof

/-- A byte, unsigned 0..255 (spec/00_scope.md R11). -/
abbrev Byte := BitVec 8

/-- A register of the window, 32 bits (spec/00_scope.md R10). -/
abbrev Word32 := BitVec 32

/-- A pixel or byte counter, 64 bits, wrapping (spec/00_scope.md R10, spec/10_state.md R26 to R28). -/
abbrev Count := BitVec 64

/-- A Pixel: four unsigned 8-bit channels in canonical RGBA order (spec/10_state.md R21). -/
structure Pixel where
  r : Byte
  g : Byte
  b : Byte
  a : Byte
  deriving DecidableEq, Repr, Inhabited

end Sys2Proof
end

