-- ==== Sys2Proof/Syntax.lean ====
section
/-! DEFINITION. The instruction set: the six chunk kinds of the QOI wire format (spec/30_encoding.md R84 to R90,
spec/opcode_table.json), with their operands as the assembler syntax gives them (R97). -/

namespace Sys2Proof

/-- One chunk. Deltas are signed and channel by channel (not relative to green), a run length is the number of
pixels, as in spec/30_encoding.md R97. -/
inductive Instr where
  /-- `RGB r, g, b` (R89). -/
  | rgb (r g b : Byte)
  /-- `RGBA r, g, b, a` (R90). -/
  | rgba (r g b a : Byte)
  /-- `INDEX i`, a cache slot (R85). -/
  | index (i : Fin 64)
  /-- `DIFF dr, dg, db`, each in -2..1 (R86). -/
  | diff (dr dg db : Int)
  /-- `LUMA dr, dg, db`, dg in -32..31, dr - dg and db - dg in -8..7 (R87). -/
  | luma (dr dg db : Int)
  /-- `RUN n`, n in 1..62 (R88). -/
  | run (n : Nat)
  deriving DecidableEq, Repr

/-- The kind of a chunk, which its first byte decides (R84). -/
inductive ChunkKind where
  | rgb | rgba | index | diff | luma | run
  deriving DecidableEq, Repr

/-- The kind of an instruction. -/
def Instr.kind : Instr → ChunkKind
  | .rgb _ _ _ => .rgb
  | .rgba _ _ _ _ => .rgba
  | .index _ => .index
  | .diff _ _ _ => .diff
  | .luma _ _ _ => .luma
  | .run _ => .run

end Sys2Proof
end

