-- ==== Sys2Proof/WellFormed.lean ====
section
/-! DEFINITION. The operand limits of the six chunks (spec/30_encoding.md R91 and R97): what an assembler accepts. -/

namespace Sys2Proof

/-- `lo <= x <= hi` on integers (spec/00_scope.md R12). -/
def within (lo hi x : Int) : Bool := decide (lo ≤ x ∧ x ≤ hi)

/-- The operands lie within the limits of R97. RGB, RGBA and INDEX have their limits in their operands' types. -/
def Instr.wellFormed : Instr → Bool
  | .rgb _ _ _ => true
  | .rgba _ _ _ _ => true
  | .index _ => true
  | .diff dr dg db => within (-2) 1 dr && within (-2) 1 dg && within (-2) 1 db
  | .luma dr dg db => within (-32) 31 dg && within (-8) 7 (dr - dg) && within (-8) 7 (db - dg)
  | .run n => decide (1 ≤ n ∧ n ≤ 62)

end Sys2Proof
end

