-- ==== Sys2Proof/Decode.lean ====
section
/-! DEFINITION. Reading chunks from bytes, and writing them (spec/30_encoding.md). `v.extractLsb hi lo` is the bit
field `v[hi:lo]` of spec/00_scope.md R11. -/

namespace Sys2Proof

/-- The dispatch on the first byte, in the order of R84: 0xFE, then 0xFF, then the top two bits. -/
def kindOf (b0 : Byte) : ChunkKind :=
  if b0 = 0xFE#8 then .rgb
  else if b0 = 0xFF#8 then .rgba
  else if b0.extractLsb 7 6 = 0b00#2 then .index
  else if b0.extractLsb 7 6 = 0b01#2 then .diff
  else if b0.extractLsb 7 6 = 0b10#2 then .luma
  else .run

/-- The length in bytes of a chunk of each kind (R84). -/
def kindLength : ChunkKind → Nat
  | .rgb => 4
  | .rgba => 5
  | .index => 1
  | .diff => 1
  | .luma => 2
  | .run => 1

/-- The length of a chunk from its first byte alone (R84, R94). -/
def chunkLength (b0 : Byte) : Nat := kindLength (kindOf b0)

/-- No chunk is longer than the 5 bytes of `opbuf`. -/
theorem chunkLength_le_five (b0 : Byte) : chunkLength b0 ≤ 5 := by
  unfold chunkLength
  cases kindOf b0 <;> decide

/-- The chunk in a buffer of five bytes. The bytes past the chunk's length are not read. Operand fields and biases
are those of R91. -/
def decodeChunk (b0 b1 b2 b3 b4 : Byte) : Instr :=
  match kindOf b0 with
  | .rgb => .rgb b1 b2 b3
  | .rgba => .rgba b1 b2 b3 b4
  | .index => .index (Fin.ofNat 64 (b0.extractLsb 5 0).toNat)
  | .diff =>
    .diff ((b0.extractLsb 5 4).toNat - 2) ((b0.extractLsb 3 2).toNat - 2) ((b0.extractLsb 1 0).toNat - 2)
  | .luma =>
    let dg : Int := (b0.extractLsb 5 0).toNat - 32
    .luma (dg + ((b1.extractLsb 7 4).toNat - 8)) dg (dg + ((b1.extractLsb 3 0).toNat - 8))
  | .run => .run ((b0.extractLsb 5 0).toNat + 1)

/-- Why bytes are no chunk. No first byte is reserved (R92), so only missing bytes are a reason. -/
inductive DecodeReject where
  /-- There is no byte. -/
  | noBytes
  /-- The bytes end inside a chunk of this kind. -/
  | truncated (kind : ChunkKind)
  deriving DecidableEq, Repr

/-- What the decoder reads: a chunk and the bytes after it, or a rejection by name. -/
inductive Decoded where
  | chunk (i : Instr) (rest : List Byte)
  | rejected (why : DecodeReject)
  deriving DecidableEq, Repr

/-- The decoder on any bytes: the chunk at their start and the bytes that follow it (R84 to R91, R94). -/
def decode : List Byte → Decoded
  | [] => .rejected .noBytes
  | b0 :: bs =>
    if bs.length + 1 < chunkLength b0 then .rejected (.truncated (kindOf b0))
    else .chunk (decodeChunk b0 (bs.getD 0 0) (bs.getD 1 0) (bs.getD 2 0) (bs.getD 3 0))
      (bs.drop (chunkLength b0 - 1))

/-- The bytes of a well-formed chunk, bit field by bit field (R85 to R90; `x ++ y` puts `x` in the high bits). -/
def encode : Instr → List Byte
  | .rgb r g b => [0xFE#8, r, g, b]
  | .rgba r g b a => [0xFF#8, r, g, b, a]
  | .index i => [0b00#2 ++ BitVec.ofNat 6 i.val]
  | .diff dr dg db =>
    [0b01#2 ++ BitVec.ofInt 2 (dr + 2) ++ BitVec.ofInt 2 (dg + 2) ++ BitVec.ofInt 2 (db + 2)]
  | .luma dr dg db =>
    [0b10#2 ++ BitVec.ofInt 6 (dg + 32), BitVec.ofInt 4 (dr - dg + 8) ++ BitVec.ofInt 4 (db - dg + 8)]
  | .run n => [0b11#2 ++ BitVec.ofNat 6 (n - 1)]

/-- The five bytes of a table word: byte `k` is bits `8k+7..8k` of `w`, and the bits at and above `nbits` are 0. -/
def tableBytes (nbits w : Nat) : List Byte :=
  let v := w % 2 ^ nbits
  [BitVec.ofNat 8 v, BitVec.ofNat 8 (v / 2 ^ 8), BitVec.ofNat 8 (v / 2 ^ 16), BitVec.ofNat 8 (v / 2 ^ 24),
    BitVec.ofNat 8 (v / 2 ^ 32)]

/-- The instruction the decoder reads from the bits of a row of the opcode table. -/
def decodeTableWord (nbits w : Nat) : Option Instr :=
  match decode (tableBytes nbits w) with
  | .chunk i _ => some i
  | .rejected _ => none

end Sys2Proof
end

