-- ==== Sys2Proof/Config.lean ====
section
/-! DEFINITION. The open parameters of the block (spec/92_eei_decisions.md "Open parameters"; log 3).
Each is a constant without a value, so what is proved holds for every legal value. -/

namespace Sys2Proof

/-- How far OUT_DEPTH exceeds its least legal value 62. No value is known. -/
opaque Config.outSpare : Nat

/-- How far IN_DEPTH exceeds its least legal value 1. No value is known. -/
opaque Config.inSpare : Nat

/-- QOI_BASE, the bus address of the register window, set by the platform (spec/20_memory.md R70). No value is known. -/
opaque Config.qoiBase : Nat

/-- OUT_DEPTH, the places of the output FIFO: at least 62 (spec/46_control.md R256, spec/90_conflicts.md C12). -/
def Config.outDepth : Nat := Config.outSpare + 62

/-- IN_DEPTH, the places of the input FIFO: at least 1 (spec/00_scope.md R10). -/
def Config.inDepth : Nat := Config.inSpare + 1

end Sys2Proof
end

