-- ==== Sys2Proof/Machine/Operands.lean ====
section
/-! DEFINITION. Pixel operands and the arithmetic on them: the named pixels, mod-256 arithmetic, the color hash, the
channel deltas, and the bus form of a pixel. -/

namespace Sys2Proof.Machine

/-- START_PIXEL, the value of `prev` at job start (spec/10_state.md R22). -/
def startPixel : Pixel := ⟨0, 0, 0, 255⟩

/-- The zero Pixel, the value of every cache slot at job start (spec/10_state.md R21, R23). -/
def zeroPixel : Pixel := ⟨0, 0, 0, 0⟩

/-- `wrap8(x) = x mod 256` (spec/00_scope.md R12). -/
def wrap8 (x : Int) : Byte := BitVec.ofInt 8 x

/-- `sext_8(v)`: the byte read as a two's-complement number in -128..127 (spec/00_scope.md R12). -/
def sext8 (v : Byte) : Int := if v.toNat < 128 then v.toNat else (v.toNat : Int) - 256

/-- The color hash, a cache slot (spec/41_color_cache.md R125). -/
def hash (p : Pixel) : Fin 64 :=
  Fin.ofNat 64 (3 * p.r.toNat + 5 * p.g.toNat + 7 * p.b.toNat + 11 * p.a.toNat)

/-- One channel's delta: the difference mod 256 read as a signed byte (spec/42_chunk_encode.md R141). -/
def channelDelta (new old : Byte) : Int := sext8 (wrap8 ((new.toNat : Int) - old.toNat))

/-- A channel plus a delta, mod 256 (spec/43_chunk_decode.md R174, R175). -/
def addDelta (old : Byte) (d : Int) : Byte := wrap8 (old.toNat + d)

/-- The pixel a DIFF or LUMA makes of `prev`: deltas added channel by channel, alpha kept (R174, R175). -/
def shifted (prev : Pixel) (dr dg db : Int) : Pixel :=
  ⟨addDelta prev.r dr, addDelta prev.g dg, addDelta prev.b db, prev.a⟩

/-- The 32-bit bus word of a pixel token, r in the top byte (spec/20_memory.md R61). No rule reads it. -/
def packPixel (p : Pixel) : Word32 := p.r ++ p.g ++ p.b ++ p.a

/-- The pixel of a bus word (spec/20_memory.md R61). -/
def unpackPixel (w : Word32) : Pixel :=
  ⟨w.extractLsb 31 24, w.extractLsb 23 16, w.extractLsb 15 8, w.extractLsb 7 0⟩

/-- The row and column of pixel number `k` in an image of this width, row-major (spec/20_memory.md R61). -/
def pixelPosition (width k : Nat) : Nat × Nat := (k / width, k % width)

end Sys2Proof.Machine
end

