-- ==== Sys2Proof/Machine/State.lean ====
section
/-! DEFINITION. The machine's state (spec/10_state.md R47 and R36), the moves of the host (spec/46_control.md R257),
the reasons a step can stop, and the state after reset (spec/70_reset_and_hazards.md R300). -/

namespace Sys2Proof.Machine

/-- The color cache: 64 slots (spec/10_state.md R23). -/
abbrev Cache := Vector Pixel 64

/-- The encoder driver's state (spec/10_state.md R25). -/
inductive EncState where
  | scanning | inRun
  deriving DecidableEq, Repr

/-- The job state (spec/10_state.md R30). -/
inductive JobState where
  | idle | busy | done | error
  deriving DecidableEq, Repr

/-- A job's mode; also the CTRL.MODE bit (spec/10_state.md R30, R36). -/
inductive JobMode where
  | encode | decode
  deriving DecidableEq, Repr

/-- The error classes (spec/60_exceptions.md R270). -/
inductive ErrClass where
  | none | format | truncation | range
  deriving DecidableEq, Repr

/-- The error codes 0 to 12, in the order of their numbers (spec/60_exceptions.md R271). Codes 13 to 15 are reserved
and never reported, so they have no name here (log 12). -/
inductive ErrCode where
  | none | magic | channels | colorspace | width | height | endMarker | pixelCount | header | chunk | pixels
  | inputShort | range
  deriving DecidableEq, Repr

/-- The result of a check: a value, or the error it raises. -/
inductive Checked (α : Type) where
  | ok (a : α)
  | raised (e : ErrCode)
  deriving DecidableEq, Repr

/-- The decoder driver's phase (spec/10_state.md R29). -/
inductive DPhase where
  /-- `k` header bytes have been taken. -/
  | hdr (k : Fin 14)
  /-- `k` bytes of the current chunk have been taken. -/
  | chunk (k : Fin 5)
  /-- `k` end-marker bytes have been taken and matched. -/
  | endm (k : Fin 8)
  deriving DecidableEq, Repr

/-- A token of IN (spec/10_state.md R34). -/
inductive InToken where
  | pixel (p : Pixel)
  | byte (b : Byte)
  | eos
  deriving DecidableEq, Repr

/-- A token of OUT (spec/10_state.md R34). -/
inductive OutToken where
  | byte (b : Byte)
  | pixel (p : Pixel)
  | doneMark
  | abortMark (cls : ErrClass) (code : ErrCode)
  deriving DecidableEq, Repr

/-- What the host, or the reset line, can do to the block in one event (spec/46_control.md R250 to R255,
spec/70_reset_and_hazards.md R300). A register access carries its width in bytes, so that the accesses R65 refuses can
be written down. -/
inductive HostEvent where
  | write (size off : Nat) (v : Word32)
  | read (size off : Nat)
  | push (t : InToken)
  | pop
  | reset
  deriving DecidableEq, Repr

/-- One move of a run of the system: the host's or the block's (spec/46_control.md R257). -/
inductive Turn where
  | host (e : HostEvent)
  | block
  deriving DecidableEq, Repr

/-- The state: the block's (spec/10_state.md R47 and HDR_VALID of R36), then three fields of the host's side, which
are the model's own. -/
structure State where
  /-- The most recently processed pixel (R22). -/
  prev : Pixel
  /-- The color cache (R23). -/
  cache : Cache
  /-- The encoder's run counter, 6 bits (R24). -/
  run : BitVec 6
  /-- The encoder driver's state (R25). -/
  encState : EncState
  /-- Width times height of the current job (R26). -/
  npix : Count
  /-- Pixels consumed (encode) or pushed (decode) (R27). -/
  pixcnt : Count
  /-- Bytes pushed (encode) or consumed (decode) (R28). -/
  bytecnt : Count
  /-- The decoder driver's phase (R29). -/
  dphase : DPhase
  /-- The bytes of the chunk being read (R29). -/
  opbuf : Vector Byte 5
  /-- The header bytes taken so far (R29). -/
  hdrbuf : Vector Byte 14
  /-- The job state (R30). -/
  state : JobState
  /-- The mode of the current job (R30). -/
  jobMode : JobMode
  /-- The class of the job's error (R30). -/
  errClass : ErrClass
  /-- The code of the job's error (R30). -/
  errCode : ErrCode
  /-- STATUS.HDR_VALID (R36; log 9). -/
  hdrValid : Bool
  /-- CTRL.MODE (R36). -/
  ctrlMode : JobMode
  /-- CTRL.IRQ_EN (R36). -/
  ctrlIrqEn : Bool
  /-- WIDTH (R37). -/
  width : Word32
  /-- HEIGHT (R38). -/
  height : Word32
  /-- CHANNELS, bits 7:0 (R39). -/
  channels : Byte
  /-- COLORSPACE, bits 7:0 (R40). -/
  colorspace : Byte
  /-- IN, oldest token first (R34). -/
  inq : List InToken
  /-- OUT, oldest token first (R34). -/
  out : List OutToken
  /-- The moves still to be made, first move first (the model's own: log 1). -/
  turns : List Turn
  /-- What the host has popped since the last START, oldest first (the model's own: log 5). -/
  popped : List OutToken
  /-- What the host's register reads returned, oldest first (the model's own: log 5). -/
  reads : List Word32
  deriving DecidableEq, Repr

/-- Why the machine faults. -/
inductive Fault where
  /-- Raised by an encoder step whose formatter is reached with an operand outside its band: RangeError inside a job
  (spec/60_exceptions.md R274, spec/93_implementation_defined.md T3). SAFE: the machine stops. -/
  | rangeErrorInJob
  deriving DecidableEq, Repr

/-- Why the model gives a move no meaning. -/
inductive Refusal where
  /-- Raised by an arm of exec that has no meaning yet. SAFE: the model stops. -/
  | notModelled (mnemonic : String)
  /-- Raised by a host register access that is not an aligned 32-bit access below 0x100 (spec/20_memory.md R65).
  SAFE: the model stops. -/
  | malformedAccess
  /-- Raised by a host push while the block is not BUSY (spec/46_control.md R254). SAFE: the host has no such move. -/
  | pushWhileNotBusy
  /-- Raised by a host push while IN holds IN_DEPTH tokens (R254). SAFE: the host has no such move. -/
  | pushWhileFull
  /-- Raised by a host push of a token that does not match the job's mode (R254). SAFE: the model stops. -/
  | pushWrongKind
  /-- Raised by a host pop while OUT is empty (spec/46_control.md R255). SAFE: the host has no such move. -/
  | popWhileEmpty
  /-- Raised by a block step that finds a token of the wrong kind at the head of IN, which no push can put there
  (log 7). SAFE: the model stops. -/
  | wrongTokenInQueue
  deriving DecidableEq, Repr

/-- The outcome of a step, or of one instruction. -/
abbrev StepResult := Host.Outcome State Fault Refusal

/-- The machine right after reset (spec/70_reset_and_hazards.md R300). -/
def State.reset : State where
  prev := startPixel
  cache := Vector.replicate 64 zeroPixel
  run := 0
  encState := .scanning
  npix := 0
  pixcnt := 0
  bytecnt := 0
  dphase := .hdr 0
  opbuf := Vector.replicate 5 0
  hdrbuf := Vector.replicate 14 0
  state := .idle
  jobMode := .encode
  errClass := .none
  errCode := .none
  hdrValid := false
  ctrlMode := .encode
  ctrlIrqEn := false
  width := 0
  height := 0
  channels := 0
  colorspace := 0
  inq := []
  out := []
  turns := []
  popped := []
  reads := []

end Sys2Proof.Machine
end

