-- ==== Sys2Proof/Machine/Flags.lean ====
section
/-! DEFINITION. What the host sees of the state without storage of its own: the numbers of modes, states and errors,
the STATUS and CTRL words, the interrupt line and IN_READY. The block has no condition flags (spec/10_state.md R33). -/

namespace Sys2Proof.Machine

/-- STATUS.STATE (spec/10_state.md R36). -/
def stateBits : JobState → BitVec 2
  | .idle => 0
  | .busy => 1
  | .done => 2
  | .error => 3

/-- STATUS.JOB_MODE and CTRL.MODE: 0 encode, 1 decode (R36). -/
def modeBit : JobMode → BitVec 1
  | .encode => 0
  | .decode => 1

/-- The mode a CTRL.MODE bit names (R36). -/
def modeOf (b : Bool) : JobMode := if b then .decode else .encode

/-- STATUS.ERR_CLASS (R36, spec/60_exceptions.md R270). -/
def classBits : ErrClass → BitVec 2
  | .none => 0
  | .format => 1
  | .truncation => 2
  | .range => 3

/-- STATUS.ERR_CODE (spec/60_exceptions.md R271). -/
def codeBits : ErrCode → BitVec 4
  | .none => 0
  | .magic => 1
  | .channels => 2
  | .colorspace => 3
  | .width => 4
  | .height => 5
  | .endMarker => 6
  | .pixelCount => 7
  | .header => 8
  | .chunk => 9
  | .pixels => 10
  | .inputShort => 11
  | .range => 12

/-- The class of an error code (spec/60_exceptions.md R271). -/
def classOf : ErrCode → ErrClass
  | .none => .none
  | .magic => .format
  | .channels => .format
  | .colorspace => .format
  | .width => .format
  | .height => .format
  | .endMarker => .format
  | .pixelCount => .format
  | .header => .truncation
  | .chunk => .truncation
  | .pixels => .truncation
  | .inputShort => .truncation
  | .range => .range

/-- STATUS.IN_RUN: 1 if the encoder is in a run; 0 in decode jobs (R36; log 14). -/
def inRunBit (s : State) : Bool := decide (s.encState = .inRun ∧ s.jobMode = .encode)

/-- The STATUS word: bits 31:13 zero, HDR_VALID, ERR_CODE, bits 7:6 zero, ERR_CLASS, IN_RUN, JOB_MODE, STATE (R36). -/
def statusWord (s : State) : Word32 :=
  0#19 ++ BitVec.ofBool s.hdrValid ++ codeBits s.errCode ++ 0#2 ++ classBits s.errClass ++
    BitVec.ofBool (inRunBit s) ++ modeBit s.jobMode ++ stateBits s.state

/-- The CTRL word as read: IRQ_EN in bit 3, MODE in bit 1, START and ACK read 0 (spec/46_control.md R251). -/
def ctrlWord (s : State) : Word32 :=
  0#28 ++ BitVec.ofBool s.ctrlIrqEn ++ 0#1 ++ modeBit s.ctrlMode ++ 0#1

/-- The IRQ output (spec/10_state.md R46). -/
def irq (s : State) : Bool := s.ctrlIrqEn && decide (s.state = .done ∨ s.state = .error)

/-- IN_READY: the host may push (spec/10_state.md R34). -/
def inReady (s : State) : Bool := decide (s.state = .busy ∧ s.inq.length < Config.inDepth)

end Sys2Proof.Machine
end

