-- ==== Sys2Proof/Machine/Ops.lean ====
section
/-! DEFINITION. The named operations over the cache and the streams, the production of pixels, and error entry and
exit (the block's exceptions). -/

namespace Sys2Proof.Machine

/-- ColorCache lookup (spec/41_color_cache.md R127). -/
def cacheLookup (slots : Cache) (i : Fin 64) : Pixel := slots[i.val]

/-- ColorCache store: the slot `hash p` takes `p`, overwriting what it held (spec/41_color_cache.md R128). -/
def cacheStore (slots : Cache) (p : Pixel) : Cache := slots.set (hash p).val p (hash p).isLt

/-- `OutPush(t)` (spec/00_scope.md R14). -/
def outPush (t : OutToken) (s : State) : State := { s with out := s.out ++ [t] }

/-- Push stream bytes in order, counting them (spec/44_encoder.md R197, spec/10_state.md R28). -/
def outBytes (bs : List Byte) (s : State) : State :=
  { s with out := s.out ++ bs.map .byte, bytecnt := s.bytecnt + BitVec.ofNat 64 bs.length }

/-- `emit(q)`: push the pixel and count it (spec/43_chunk_decode.md, its head). -/
def emit (q : Pixel) (s : State) : State := { outPush (.pixel q) s with pixcnt := s.pixcnt + 1 }

/-- `repeat n times: emit(q)` (spec/43_chunk_decode.md R176). -/
def emitTimes : Nat → Pixel → State → State
  | 0, _, s => s
  | n + 1, q, s => emitTimes n q (emit q s)

/-- Produce one pixel without a store: `emit(q); prev <- q` (spec/43_chunk_decode.md R173). -/
def produce (q : Pixel) (s : State) : State := { emit q s with prev := q }

/-- Produce one pixel with a store: `store(q); emit(q); prev <- q` (spec/43_chunk_decode.md R171). The slot is the
hash of the new pixel (R179). -/
def produceStored (q : Pixel) (s : State) : State := produce q { s with cache := cacheStore s.cache q }

/-- Error entry, `raise E(code)`: record class and code, push ABORT_MARK, enter ERROR; nothing else changes
(spec/60_exceptions.md R275). The token that caused the error has been popped by the caller. -/
def raiseError (e : ErrCode) (s : State) : State :=
  { outPush (.abortMark (classOf e) e) s with errClass := classOf e, errCode := e, state := .error }

/-- Error exit and end of a DONE job, ACK: DONE and ERROR return to IDLE, all else is kept
(spec/46_control.md R253). -/
def ackJob (s : State) : State :=
  match s.state with
  | .done => { s with state := .idle }
  | .error => { s with state := .idle }
  | .idle => s
  | .busy => s

/-- Successful end of a job: push DONE_MARK and enter DONE (spec/44_encoder.md R200, spec/45_decoder.md R227). -/
def completeJob (s : State) : State := { outPush .doneMark s with state := .done }

/-- Reset of the block, in one event (spec/70_reset_and_hazards.md R300). The host's side is not the block's: the
moves still to be made and what the host has seen are kept (log 6). -/
def resetBlock (s : State) : State :=
  { State.reset with turns := s.turns, popped := s.popped, reads := s.reads }

end Sys2Proof.Machine
end

