-- ==== Sys2Proof/Machine/Chunks.lean ====
section
/-! DEFINITION. The meanings of the six chunks: what a decode job does when a chunk's last byte has been taken
(spec/43_chunk_decode.md R170 to R179). -/

namespace Sys2Proof.Machine

/-- RGB: alpha comes from `prev`; the new pixel is stored (R171). -/
def execRgb (r g b : Byte) (s : State) : StepResult := .next (produceStored ⟨r, g, b, s.prev.a⟩ s)

/-- RGBA: the new pixel is stored (R172). -/
def execRgba (r g b a : Byte) (s : State) : StepResult := .next (produceStored ⟨r, g, b, a⟩ s)

/-- INDEX: the pixel of the slot; the cache is not written (R173). -/
def execIndex (i : Fin 64) (s : State) : StepResult := .next (produce (cacheLookup s.cache i) s)

/-- DIFF: the deltas are added to `prev` mod 256, alpha unchanged; the new pixel is stored (R174). -/
def execDiff (dr dg db : Int) (s : State) : StepResult := .next (produceStored (shifted s.prev dr dg db) s)

/-- LUMA: as DIFF, with the deltas of its two bytes (R175). -/
def execLuma (dr dg db : Int) (s : State) : StepResult := .next (produceStored (shifted s.prev dr dg db) s)

/-- RUN: FormatError(PIXEL_COUNT) if the run passes the pixels still owed, before any pixel is pushed
(spec/45_decoder.md R225); else `prev` is emitted n times, and neither `prev` nor the cache changes (R176). -/
def execRun (n : Nat) (s : State) : StepResult :=
  if s.npix.toNat < s.pixcnt.toNat + n then .next (raiseError .pixelCount s)
  else .next (emitTimes n s.prev s)

end Sys2Proof.Machine
end

