-- ==== Sys2Proof/Machine/Header.lean ====
section
/-! DEFINITION. HeaderCodec: the legality check, the 14 header bytes, and reading them back (spec/40_header.md), with
the header's layout and the end marker (spec/30_encoding.md R81 to R83). -/

namespace Sys2Proof.Machine

/-- The four fields a header carries (spec/30_encoding.md R81). -/
structure Header where
  width : Word32
  height : Word32
  channels : Byte
  colorspace : Byte
  deriving DecidableEq, Repr

/-- The magic, "qoif" (R81). -/
def magicBytes : List Byte := [0x71#8, 0x6F#8, 0x69#8, 0x66#8]

/-- The end marker (spec/30_encoding.md R83). -/
def endMarker : List Byte := [0x00#8, 0x00#8, 0x00#8, 0x00#8, 0x00#8, 0x00#8, 0x00#8, 0x01#8]

/-- A legal width or height: 1..2^31 - 1, read as an unsigned number (spec/40_header.md R110, R116). -/
def legalDimension (v : Word32) : Bool := decide (1 ≤ v.toNat ∧ v.toNat ≤ 2 ^ 31 - 1)

/-- `HeaderCheck(w, h, c, s)`: the tests in order, the first failure is the result (R110). -/
def headerCheck (hd : Header) : Checked Header :=
  if hd.channels ≠ 3 ∧ hd.channels ≠ 4 then .raised .channels
  else if hd.colorspace ≠ 0 ∧ hd.colorspace ≠ 1 then .raised .colorspace
  else if legalDimension hd.width = false then .raised .width
  else if legalDimension hd.height = false then .raised .height
  else .ok hd

/-- The four bytes of a 32-bit field, big-endian (spec/30_encoding.md R82). -/
def bigEndianBytes (v : Word32) : List Byte :=
  [v.extractLsb 31 24, v.extractLsb 23 16, v.extractLsb 15 8, v.extractLsb 7 0]

/-- The 32-bit number of four big-endian bytes (spec/30_encoding.md R82). -/
def bigEndianWord (b0 b1 b2 b3 : Byte) : Word32 :=
  BitVec.ofNat 32 (b0.toNat * 2 ^ 24 + b1.toNat * 2 ^ 16 + b2.toNat * 2 ^ 8 + b3.toNat)

/-- The 14 bytes of a header (R81). -/
def headerBytes (hd : Header) : List Byte :=
  magicBytes ++ bigEndianBytes hd.width ++ bigEndianBytes hd.height ++ [hd.channels, hd.colorspace]

/-- `HeaderEncode` (R111). -/
def headerEncode (hd : Header) : Checked (List Byte) :=
  match headerCheck hd with
  | .raised e => .raised e
  | .ok ok => .ok (headerBytes ok)

/-- `HeaderDecode`: the magic first, all four bytes of it, then the checks of R110 (R112, R113). -/
def headerDecode (b : Vector Byte 14) : Checked Header :=
  if [b[0], b[1], b[2], b[3]] ≠ magicBytes then .raised .magic
  else headerCheck ⟨bigEndianWord b[4] b[5] b[6] b[7], bigEndianWord b[8] b[9] b[10] b[11], b[12], b[13]⟩

/-- Width times height, in 64 bits (spec/10_state.md R26). -/
def pixelCount (hd : Header) : Count := BitVec.ofNat 64 (hd.width.toNat * hd.height.toNat)

end Sys2Proof.Machine
end

