-- ==== Sys2Proof/Machine/Decoder.lean ====
section
/-! DEFINITION. The decoder driver: header, chunk and end-marker steps, one byte each (spec/45_decoder.md). Each step
takes the token already popped from IN. -/

namespace Sys2Proof.Machine

/-- Header acceptance (R223). -/
def acceptHeader (hd : Header) (s : State) : State :=
  { s with
    width := hd.width
    height := hd.height
    channels := hd.channels
    colorspace := hd.colorspace
    npix := pixelCount hd
    hdrValid := true
    dphase := .chunk 0 }

/-- Decoder step in HDR(k) (R221, R222). An error leaves the byte uncommitted (spec/60_exceptions.md R275). -/
def headerStep (k : Fin 14) (t : InToken) (s : State) : StepResult :=
  match t with
  | .eos => .next (raiseError .header s)
  | .pixel _ => .refused .wrongTokenInQueue
  | .byte b =>
    let buf := s.hdrbuf.set k.val b k.isLt
    let s1 := { s with hdrbuf := buf, bytecnt := s.bytecnt + 1 }
    if h : k.val + 1 < 14 then .next { s1 with dphase := .hdr ⟨k.val + 1, h⟩ }
    else
      match headerDecode buf with
      | .raised e => .next (raiseError e s)
      | .ok hd => .next (acceptHeader hd s1)

/-- The chunk in `opbuf` (spec/30_encoding.md R84 to R90). -/
def bufferedChunk (op : Vector Byte 5) : Instr := decodeChunk op[0] op[1] op[2] op[3] op[4]

/-- The phase after a chunk has committed: the end marker exactly when all pixels have been produced (R226). -/
def phaseAfterChunk (s : State) : DPhase := if s.pixcnt = s.npix then .endm 0 else .chunk 0

/-- The driver's own effects around a chunk: the last byte is recorded and counted and the phase moves on, unless the
chunk raised an error, which undoes them (R224, spec/60_exceptions.md R275). -/
def commitChunk (op : Vector Byte 5) (r : StepResult) : StepResult :=
  match r with
  | .next t =>
    if t.state = .busy then
      .next { t with opbuf := op, bytecnt := t.bytecnt + 1, dphase := phaseAfterChunk t }
    else .next t
  | .fault f => .fault f
  | .refused w => .refused w

/-- Decoder step in CHUNK(k) (R224, R225, R229). -/
def chunkStep (k : Fin 5) (t : InToken) (s : State) : StepResult :=
  match t with
  | .eos => .next (raiseError (if k.val = 0 then .pixels else .chunk) s)
  | .pixel _ => .refused .wrongTokenInQueue
  | .byte b =>
    let op := s.opbuf.set k.val b k.isLt
    if h : k.val + 1 < chunkLength op[0] then
      .next { s with
        opbuf := op
        bytecnt := s.bytecnt + 1
        dphase := .chunk ⟨k.val + 1, Nat.lt_of_lt_of_le h (chunkLength_le_five op[0])⟩ }
    else commitChunk op (exec (bufferedChunk op) s)

/-- Decoder step in ENDM(k) (R227). -/
def endMarkerStep (k : Fin 8) (t : InToken) (s : State) : StepResult :=
  match t with
  | .eos => .next (raiseError .endMarker s)
  | .pixel _ => .refused .wrongTokenInQueue
  | .byte b =>
    if b ≠ endMarker.getD k.val 0 then .next (raiseError .endMarker s)
    else if h : k.val + 1 < 8 then
      .next { s with bytecnt := s.bytecnt + 1, dphase := .endm ⟨k.val + 1, h⟩ }
    else .next (completeJob { s with bytecnt := s.bytecnt + 1 })

/-- The decoder step of the current phase (spec/46_control.md R256). -/
def decoderStep (t : InToken) (s : State) : StepResult :=
  match s.dphase with
  | .hdr k => headerStep k t s
  | .chunk k => chunkStep k t s
  | .endm k => endMarkerStep k t s

end Sys2Proof.Machine
end

