-- ==== Sys2Proof/Machine/EncodeChunk.lean ====
section
/-! DEFINITION. ChunkCodec, encode side: the formatters with their RangeError results, and the chunk chosen for one
pixel (spec/42_chunk_encode.md). -/

namespace Sys2Proof.Machine

/-- `fmt_DIFF` (R148). -/
def fmtDiff (dr dg db : Int) : Checked (List Byte) :=
  if (-2 ≤ dr ∧ dr ≤ 1) ∧ (-2 ≤ dg ∧ dg ≤ 1) ∧ (-2 ≤ db ∧ db ≤ 1) then
    .ok [wrap8 (0x40 + (dr + 2) * 16 + (dg + 2) * 4 + (db + 2))]
  else .raised .range

/-- `fmt_INDEX` (R149). -/
def fmtIndex (i : Int) : Checked (List Byte) :=
  if 0 ≤ i ∧ i ≤ 63 then .ok [wrap8 i] else .raised .range

/-- `fmt_LUMA` (R150). The differences are those of the integers, not wrapped again (R153). -/
def fmtLuma (dr dg db : Int) : Checked (List Byte) :=
  if (-32 ≤ dg ∧ dg ≤ 31) ∧ (-8 ≤ dr - dg ∧ dr - dg ≤ 7) ∧ (-8 ≤ db - dg ∧ db - dg ≤ 7) then
    .ok [wrap8 (0x80 + (dg + 32)), wrap8 ((dr - dg + 8) * 16 + (db - dg + 8))]
  else .raised .range

/-- `fmt_RGB` (R151). -/
def fmtRgb (r g b : Byte) : Checked (List Byte) := .ok [0xFE#8, r, g, b]

/-- `fmt_RGBA` (R151). -/
def fmtRgba (r g b a : Byte) : Checked (List Byte) := .ok [0xFF#8, r, g, b, a]

/-- `fmt_RUN` (R152). -/
def fmtRun (n : Int) : Checked (List Byte) :=
  if 1 ≤ n ∧ n ≤ 62 then .ok [wrap8 (0xC0 + (n - 1))] else .raised .range

/-- All three deltas fit DIFF (R144). -/
def fitsDiff (dr dg db : Int) : Bool :=
  decide ((-2 ≤ dr ∧ dr ≤ 1) ∧ (-2 ≤ dg ∧ dg ≤ 1) ∧ (-2 ≤ db ∧ db ≤ 1))

/-- The deltas fit LUMA (R145, R153). -/
def fitsLuma (dr dg db : Int) : Bool :=
  decide ((-32 ≤ dg ∧ dg ≤ 31) ∧ (-8 ≤ dr - dg ∧ dr - dg ≤ 7) ∧ (-8 ≤ db - dg ∧ db - dg ≤ 7))

/-- The chunk for a pixel that misses the cache: DIFF, then LUMA, then RGB, if alpha is that of `prev`; else RGBA
(R140, R144 to R147). -/
def encodeMiss (prev p : Pixel) : Checked (List Byte) :=
  if p.a = prev.a then
    let dr := channelDelta p.r prev.r
    let dg := channelDelta p.g prev.g
    let db := channelDelta p.b prev.b
    if fitsDiff dr dg db then fmtDiff dr dg db
    else if fitsLuma dr dg db then fmtLuma dr dg db
    else fmtRgb p.r p.g p.b
  else fmtRgba p.r p.g p.b p.a

/-- `EncodePixel(p)`: the chunk's bytes and the cache after it. A hit writes nothing (R142); a miss stores the pixel
(R143). It reads neither CHANNELS nor COLORSPACE and does not write `prev` (R140). -/
def encodePixel (prev : Pixel) (cache : Cache) (p : Pixel) : Checked (List Byte) × Cache :=
  if cacheLookup cache (hash p) = p then (fmtIndex (hash p).val, cache)
  else (encodeMiss prev p, cacheStore cache p)

end Sys2Proof.Machine
end

