-- ==== Sys2Proof/Machine/Encoder.lean ====
section
/-! DEFINITION. The encoder driver and its run-length front-end (spec/44_encoder.md). -/

namespace Sys2Proof.Machine

/-- The configuration registers as a header (spec/44_encoder.md R196). -/
def configHeader (s : State) : Header := ⟨s.width, s.height, s.channels, s.colorspace⟩

/-- Encoder start, after the common initialisation of START: the header is checked and pushed, or the error raised
with no header byte pushed (R196; log 4). -/
def encoderStart (s : State) : State :=
  match headerEncode (configHeader s) with
  | .raised e => raiseError e s
  | .ok hb => { outBytes hb { s with npix := pixelCount (configHeader s) } with bytecnt := 14, hdrValid := true }

/-- What the run-length front-end makes of one pixel: the bytes to push, the run afterwards, and the cache. -/
structure Taken where
  bytes : Checked (List Byte)
  run : Nat
  cache : Cache

/-- Two results of formatting, one after the other. -/
def joinBytes : Checked (List Byte) → Checked (List Byte) → Checked (List Byte)
  | .raised e, _ => .raised e
  | .ok _, .raised e => .raised e
  | .ok xs, .ok ys => .ok (xs ++ ys)

/-- One pixel through the run path, or through the termination of a run by a differing pixel (R197, R198). -/
def takePixel (prev : Pixel) (cache : Cache) (run : Nat) (last : Bool) (p : Pixel) : Taken :=
  if p = prev then
    if run + 1 = 62 ∨ last = true then ⟨fmtRun ((run + 1 : Nat) : Int), 0, cache⟩
    else ⟨.ok [], run + 1, cache⟩
  else
    let held : Checked (List Byte) := if 0 < run then fmtRun (run : Int) else .ok []
    let chosen := encodePixel prev cache p
    ⟨joinBytes held chosen.1, 0, chosen.2⟩

/-- Finish: the end marker, then DONE_MARK, and the job is DONE (R200). -/
def encoderFinish (s : State) : State := completeJob (outBytes endMarker s)

/-- The encoder step's pixel is the last one: `pixcnt = npix - 1` (R197). -/
def isLastPixel (s : State) : Bool := decide (s.pixcnt = s.npix - 1)

/-- The state after a pixel whose bytes are `bs` (R197), before the finish of R200. -/
def encoderCommit (p : Pixel) (k : Taken) (bs : List Byte) (s : State) : State :=
  outBytes bs { s with
    prev := p
    cache := k.cache
    run := BitVec.ofNat 6 k.run
    encState := if 0 < k.run then .inRun else .scanning
    pixcnt := s.pixcnt + 1 }

/-- The encoder step for the token `t`, already popped from IN (R197, R199). A RangeError is a fault of the model
(spec/60_exceptions.md R274). -/
def encoderStep (t : InToken) (s : State) : StepResult :=
  match t with
  | .eos => .next (raiseError .inputShort s)
  | .byte _ => .refused .wrongTokenInQueue
  | .pixel p =>
    let k := takePixel s.prev s.cache s.run.toNat (isLastPixel s) p
    match k.bytes with
    | .raised _ => .fault .rangeErrorInJob
    | .ok bs =>
      let s1 := encoderCommit p k bs s
      .next (if isLastPixel s then encoderFinish s1 else s1)

end Sys2Proof.Machine
end

