-- ==== Sys2Proof/Machine/Block.lean ====
section
/-! DEFINITION. The block's step: when it fires, and what it does (spec/46_control.md R256). -/

namespace Sys2Proof.Machine

/-- ROOM, the free places of OUT a step needs (R256). -/
def roomNeeded (s : State) : Nat :=
  match s.jobMode with
  | .encode => 15
  | .decode =>
    match s.dphase with
    | .hdr _ => 1
    | .chunk _ => 62
    | .endm _ => 1

/-- OUT has ROOM free places (R256). -/
def hasRoom (s : State) : Bool := decide (s.out.length + roomNeeded s ≤ Config.outDepth)

/-- The job still takes tokens: an encode job only while `pixcnt < npix` (spec/44_encoder.md R197, R201). -/
def takesTokens (s : State) : Bool :=
  match s.jobMode with
  | .encode => decide (s.pixcnt < s.npix)
  | .decode => true

/-- The block has a step, apart from the token it needs (R256). -/
def canStep (s : State) : Bool := decide (s.state = .busy) && hasRoom s && takesTokens s

/-- The step of the current job, on the popped token. -/
def jobStep (t : InToken) (s : State) : StepResult :=
  match s.jobMode with
  | .encode => encoderStep t s
  | .decode => decoderStep t s

/-- The block's move: one step if the block has one, and otherwise nothing (R256, spec/60_exceptions.md R286;
log 2). -/
def blockStep (s : State) : StepResult :=
  match s.inq with
  | [] => .next s
  | t :: rest => if canStep s then jobStep t { s with inq := rest } else .next s

end Sys2Proof.Machine
end

