-- ==== Sys2Proof/Machine/Control.lean ====
section
/-! DEFINITION. The host's operations: register write and read, START, ACK, push, pop, and reset
(spec/46_control.md R250 to R255, spec/70_reset_and_hazards.md R300). -/

namespace Sys2Proof.Machine

/-- The bus address of the register at an offset (spec/20_memory.md R70). -/
def registerAddress (off : Nat) : Nat := Config.qoiBase + off

/-- The window offset of a bus address, if the address lies in the window (spec/20_memory.md R60, R70). -/
def windowOffset (addr : Nat) : Option Nat :=
  if Config.qoiBase ≤ addr ∧ addr - Config.qoiBase < 0x100 then some (addr - Config.qoiBase) else none

/-- The accesses that have a meaning: 32 bits wide, at a multiple of 4 below 0x100 (spec/20_memory.md R65). -/
def legalAccess (size off : Nat) : Bool := decide (size = 4 ∧ off % 4 = 0 ∧ off < 0x100)

/-- The common initialisation of a job (spec/46_control.md R252). What the host popped before belongs to no result of
this job (R258). -/
def jobInit (s : State) : State :=
  { s with
    jobMode := s.ctrlMode
    inq := []
    out := []
    prev := startPixel
    cache := Vector.replicate 64 zeroPixel
    run := 0
    encState := .scanning
    npix := 0
    pixcnt := 0
    bytecnt := 0
    dphase := .hdr 0
    opbuf := Vector.replicate 5 0
    hdrbuf := Vector.replicate 14 0
    errClass := .none
    errCode := .none
    hdrValid := false
    state := .busy
    popped := [] }

/-- START: the initialisation, then the encoder start in an encode job (R252). -/
def startJob (s : State) : State :=
  match s.ctrlMode with
  | .encode => encoderStart (jobInit s)
  | .decode => jobInit s

/-- A write to CTRL: MODE and IRQ_EN take their bits; then START, or else ACK (R250, R252, R253). -/
def writeCtrl (v : Word32) (s : State) : State :=
  let s1 := { s with ctrlMode := modeOf (v.getLsbD 1), ctrlIrqEn := v.getLsbD 3 }
  if v.getLsbD 0 = true ∧ s.state ≠ .busy then startJob s1
  else if v.getLsbD 2 = true then ackJob s1
  else s1

/-- `HostWrite(off, v)` at a legal offset (R250). Configuration registers take the value only while not BUSY; every
other offset ignores the write. -/
def hostWrite (off : Nat) (v : Word32) (s : State) : State :=
  if off = 0x00 then writeCtrl v s
  else if s.state = .busy then s
  else if off = 0x08 then { s with width := v }
  else if off = 0x0C then { s with height := v }
  else if off = 0x10 then { s with channels := v.extractLsb 7 0 }
  else if off = 0x14 then { s with colorspace := v.extractLsb 7 0 }
  else s

/-- `HostRead(off)` at a legal offset (R251). -/
def hostRead (off : Nat) (s : State) : Word32 :=
  if off = 0x00 then ctrlWord s
  else if off = 0x04 then statusWord s
  else if off = 0x08 then s.width
  else if off = 0x0C then s.height
  else if off = 0x10 then s.channels.setWidth 32
  else if off = 0x14 then s.colorspace.setWidth 32
  else if off = 0x18 then s.pixcnt.extractLsb 31 0
  else if off = 0x1C then s.pixcnt.extractLsb 63 32
  else if off = 0x20 then s.bytecnt.extractLsb 31 0
  else if off = 0x24 then s.bytecnt.extractLsb 63 32
  else 0

/-- The token kinds a job takes: a Pixel in an encode job, a byte in a decode job, EOS in either (R254). -/
def kindMatches (m : JobMode) (t : InToken) : Bool :=
  match t, m with
  | .pixel _, .encode => true
  | .byte _, .decode => true
  | .eos, _ => true
  | .pixel _, .decode => false
  | .byte _, .encode => false

/-- `HostPush(t)` (R254). -/
def hostPush (t : InToken) (s : State) : StepResult :=
  if s.state ≠ .busy then .refused .pushWhileNotBusy
  else if Config.inDepth ≤ s.inq.length then .refused .pushWhileFull
  else if kindMatches s.jobMode t = false then .refused .pushWrongKind
  else .next { s with inq := s.inq ++ [t] }

/-- `HostPop()`, in every state (R255). The popped token is kept on the host's side. -/
def hostPop (s : State) : StepResult :=
  match s.out with
  | [] => .refused .popWhileEmpty
  | t :: rest => .next { s with out := rest, popped := s.popped ++ [t] }

/-- The host's move. A read changes nothing of the block; its value goes to the host (R251). -/
def hostMove (e : HostEvent) (s : State) : StepResult :=
  match e with
  | .write size off v => if legalAccess size off then .next (hostWrite off v s) else .refused .malformedAccess
  | .read size off =>
    if legalAccess size off then .next { s with reads := s.reads ++ [hostRead off s] } else .refused .malformedAccess
  | .push t => hostPush t s
  | .pop => hostPop s
  | .reset => .next (resetBlock s)

end Sys2Proof.Machine
end

