-- ==== Sys2Proof/Machine/Loader.lean ====
section
/-! DEFINITION. How the model places one chunk as the next instruction: there is no program memory and no fetch
(spec/20_memory.md R75), so the host's load of a stream stands for it (spec/70_reset_and_hazards.md R305; log 11). -/

namespace Sys2Proof.Machine

/-- `s` in the chunk phase of a decode job of 62 pixels, of which none has been produced, with all bytes of the chunk
at the start of `bs` taken but the last one, which is in IN; OUT is empty and the host plans no move. -/
def placeChunk (bs : List Byte) (s : State) : State :=
  { s with
    state := .busy
    jobMode := .decode
    npix := 62
    pixcnt := 0
    hdrValid := true
    dphase := .chunk (Fin.ofNat 5 (chunkLength (bs.getD 0 0) - 1))
    opbuf := #v[bs.getD 0 0, bs.getD 1 0, bs.getD 2 0, bs.getD 3 0, bs.getD 4 0]
    inq := [.byte (bs.getD (chunkLength (bs.getD 0 0) - 1) 0)]
    out := []
    turns := [] }

end Sys2Proof.Machine
end

