-- ==== Sys2Proof/Machine/Step.lean ====
section
/-! DEFINITION. One step of the system: the next move of the host's plan, or the block's own step when the plan is
empty (spec/46_control.md R257; log 1), and the placing of a first instruction (log 11). -/

namespace Sys2Proof.Machine

/-- One event of the total order (spec/20_memory.md R72): the first of the moves still to be made, or the block's
move when none is planned. -/
def step (s : State) : Host.Outcome State Fault Refusal :=
  match s.turns with
  | [] => blockStep s
  | .block :: ts => blockStep { s with turns := ts }
  | .host e :: ts => hostMove e { s with turns := ts }

/-- `s` as a decode job that is about to take the last byte of this chunk (log 11). -/
def State.withFetchWord (s : State) (nbits w : Nat) : State := placeChunk (tableBytes nbits w) s

end Sys2Proof.Machine
end

