-- ==== Sys2Proof/Machine/Assembler.lean ====
section
/-! DEFINITION. The chunk assembler: `.header`, chunks, the pseudo-instruction REPEAT, and `.end`
(spec/30_encoding.md R97, R98). The whole stream is header, chunks, end marker (R80). -/

namespace Sys2Proof.Machine

/-- One line of assembler text (R97, R98). -/
inductive AsmLine where
  | header (hd : Header)
  | chunk (i : Instr)
  | repeatRun (n : Nat)
  | endLine
  deriving DecidableEq, Repr

/-- `REPEAT n`: `n div 62` copies of `RUN 62`, then `RUN (n mod 62)` if that is not 0 (R98). -/
def expandRepeat (n : Nat) : List Instr :=
  List.replicate (n / 62) (.run 62) ++ (if n % 62 = 0 then [] else [.run (n % 62)])

/-- The bytes of one line; the assembler refuses an operand outside its limits (R97). -/
def assembleLine : AsmLine → Checked (List Byte)
  | .header hd =>
    match headerEncode hd with
    | .ok hb => .ok hb
    | .raised _ => .raised .range
  | .chunk i => if i.wellFormed then .ok (encode i) else .raised .range
  | .repeatRun n => if 1 ≤ n then .ok ((expandRepeat n).flatMap encode) else .raised .range
  | .endLine => .ok endMarker

/-- The bytes of a program, or the first line's refusal. -/
def assemble : List AsmLine → Checked (List Byte)
  | [] => .ok []
  | l :: ls =>
    match assembleLine l, assemble ls with
    | .raised e, _ => .raised e
    | .ok _, .raised e => .raised e
    | .ok xs, .ok ys => .ok (xs ++ ys)

/-- A whole stream from a header and chunks (R80). -/
def streamBytes (hd : Header) (chunks : List Instr) : List Byte :=
  headerBytes hd ++ chunks.flatMap encode ++ endMarker

end Sys2Proof.Machine
end

