-- ==== Sys2Proof/Safety.lean ====
section
/-! DEFINITION. What counts as a safe run, in the terms the claims use: the result of a job, the invariant of the
machine, single moves of the system and the host's sessions, and which states the host cannot tell apart. -/

namespace Sys2Proof.Machine

/-- A terminal token of OUT (spec/46_control.md R258). -/
def isTerminal : OutToken → Bool
  | .byte _ => false
  | .pixel _ => false
  | .doneMark => true
  | .abortMark _ _ => true

/-- A data token of a job's output: a byte in an encode job, a Pixel in a decode job (spec/10_state.md R34). -/
def isDataOf : JobMode → OutToken → Bool
  | .encode, .byte _ => true
  | .decode, .pixel _ => true
  | .encode, .pixel _ => false
  | .decode, .byte _ => false
  | _, .doneMark => false
  | _, .abortMark _ _ => false

/-- The result of a job: the data tokens popped since START, and the terminal token (R258). -/
structure JobResult where
  data : List OutToken
  terminal : OutToken
  deriving DecidableEq, Repr

/-- The result in what the host has popped since START; none while no terminal token has been popped (R258). -/
def jobResult (popped : List OutToken) : Option JobResult :=
  match popped.dropWhile (fun t => !isTerminal t) with
  | [] => none
  | t :: _ => some ⟨popped.takeWhile (fun t => !isTerminal t), t⟩

/-- The valid output of a job: only a result that ends in DONE_MARK carries one (R258, spec/60_exceptions.md R276). -/
def validOutput (popped : List OutToken) : Option (List OutToken) :=
  match jobResult popped with
  | some ⟨data, .doneMark⟩ => some data
  | _ => none

/-- What the phase of a BUSY decode job says about its counters (spec/45_decoder.md R220 to R227). -/
def phaseHolds (s : State) : Prop :=
  match s.dphase with
  | .hdr k => s.npix = 0 ∧ s.pixcnt = 0 ∧ s.bytecnt.toNat = k.val
  | .chunk k => s.pixcnt.toNat < s.npix.toNat ∧ (k.val = 0 ∨ k.val < chunkLength s.opbuf[0])
  | .endm _ => s.pixcnt = s.npix ∧ s.npix ≠ 0

/-- The invariant of the machine. -/
structure Inv (s : State) : Prop where
  /-- The run counter is below 62 between steps (spec/10_state.md R24). -/
  run_below : s.run.toNat < 62
  /-- `enc_state` is IN_RUN exactly when the run counter is not 0 (spec/10_state.md R25). -/
  in_run : s.encState = .inRun ↔ s.run ≠ 0
  /-- Decode jobs hold no run. -/
  decode_run : s.jobMode = .decode → s.run = 0
  /-- The pixel count of an image fits (spec/10_state.md R26). -/
  npix_bound : s.npix.toNat < 2 ^ 62
  /-- No more pixels than the image has (spec/45_decoder.md R226). -/
  pixels_within : s.pixcnt.toNat ≤ s.npix.toNat
  /-- HDR_VALID says that the pixel count is known (spec/10_state.md R36). -/
  header_known : s.hdrValid = true ↔ s.npix ≠ 0
  /-- A cache slot holds a pixel that hashes to it, or the zero pixel (spec/41_color_cache.md R129). -/
  cache_slots : ∀ i : Fin 64, hash (cacheLookup s.cache i) = i ∨ cacheLookup s.cache i = zeroPixel
  /-- The error class is the class of the error code (spec/60_exceptions.md R271). -/
  error_class : s.errClass = classOf s.errCode
  /-- An ERROR state names an error (spec/60_exceptions.md R275). -/
  error_named : s.state = .error → s.errCode ≠ .none
  /-- A job that runs or is DONE has no error (spec/60_exceptions.md R278). -/
  no_error : s.state = .busy ∨ s.state = .done → s.errCode = .none
  /-- A running encode job still owes a pixel (spec/44_encoder.md R197). -/
  encode_owes : s.state = .busy → s.jobMode = .encode → s.pixcnt.toNat < s.npix.toNat
  /-- The phase of a running decode job. -/
  decode_phase : s.state = .busy → s.jobMode = .decode → phaseHolds s
  /-- IN holds tokens of the job's kind (spec/46_control.md R254). -/
  in_kinds : s.state = .busy → ∀ t ∈ s.inq, kindMatches s.jobMode t = true
  /-- IN never holds more than IN_DEPTH tokens (spec/46_control.md R254). -/
  in_bound : s.inq.length ≤ Config.inDepth
  /-- OUT never holds more than OUT_DEPTH tokens (spec/46_control.md R256). -/
  out_bound : s.out.length ≤ Config.outDepth
  /-- While a job runs, OUT holds its data tokens only. -/
  out_data : s.state = .busy → ∀ t ∈ s.out, isDataOf s.jobMode t = true
  /-- When a job is DONE, what is left of its output ends in DONE_MARK, after data tokens only
  (spec/45_decoder.md R228). -/
  out_done : s.state = .done →
    s.out = [] ∨ ∃ ds, s.out = ds ++ [.doneMark] ∧ ∀ t ∈ ds, isDataOf s.jobMode t = true
  /-- When a job has failed, what is left of its output ends in its ABORT_MARK, after data tokens only
  (spec/60_exceptions.md R275, R276). -/
  out_error : s.state = .error →
    s.out = [] ∨ ∃ ds, s.out = ds ++ [.abortMark s.errClass s.errCode] ∧ ∀ t ∈ ds, isDataOf s.jobMode t = true

/-- Going on after a next state; a fault or a refusal ends the run. -/
def andThen (r : StepResult) (f : State → StepResult) : StepResult :=
  match r with
  | .next t => f t
  | .fault e => .fault e
  | .refused w => .refused w

/-- One move of the system, as a step (spec/46_control.md R257). -/
def move (m : Turn) (s : State) : StepResult := step { s with turns := [m] }

/-- Moves one after the other. -/
def moves : List Turn → State → StepResult
  | [], s => .next s
  | m :: ms, s => andThen (move m s) (moves ms)

/-- The host pops all of OUT. -/
def drain (s : State) : StepResult := moves (List.replicate s.out.length (.host .pop)) s

/-- The host pushes a token, the block steps, and the host pops all of OUT. -/
def feedToken (t : InToken) (s : State) : StepResult :=
  andThen (moves [.host (.push t), .block] s) drain

/-- Tokens fed one after the other. -/
def feed : List InToken → State → StepResult
  | [], s => .next s
  | t :: ts, s => andThen (feedToken t s) (feed ts)

/-- An encode job as a host runs it: configure, START, pop the header, feed the pixels (spec/70_reset_and_hazards.md
R304). -/
def encodeSession (hd : Header) (px : List Pixel) (s : State) : StepResult :=
  andThen (moves [.host (.write 4 0x08 hd.width), .host (.write 4 0x0C hd.height),
    .host (.write 4 0x10 (hd.channels.setWidth 32)), .host (.write 4 0x14 (hd.colorspace.setWidth 32)),
    .host (.write 4 0x00 0x00000001#32)] s)
    (fun t => andThen (drain t) (feed (px.map .pixel)))

/-- A decode job as a host runs it: START, feed the stream (spec/70_reset_and_hazards.md R305). -/
def decodeSession (bs : List Byte) (s : State) : StepResult :=
  andThen (moves [.host (.write 4 0x00 0x00000003#32)] s) (feed (bs.map .byte))

/-- Two states that agree on everything but `prev`, `cache`, `run`, `npix`, `dphase`, `opbuf`, `hdrbuf`, which the
host cannot read (spec/10_state.md R44). -/
def sameButHidden (s t : State) : Prop :=
  t = { s with
    prev := t.prev, cache := t.cache, run := t.run, npix := t.npix, dphase := t.dphase, opbuf := t.opbuf,
    hdrbuf := t.hdrbuf }

end Sys2Proof.Machine
end

