-- ==== Sys2Proof/Certificates/Slice0/Obligations.lean ====
section
/-! DEFINITION. The statements for the provers. Each says which rule of spec/ it formalises. -/

open Sys2Proof Sys2Proof.Machine

/-! ### The wire format (spec/30_encoding.md) -/

/-- R84: the first byte decides kind and length, by the ranges of the rule's table. -/
def Obligations.FirstByteFixesKindAndLength : Prop :=
  ∀ b0 : Byte,
    kindOf b0 = (if b0.toNat = 0xFE then .rgb else if b0.toNat = 0xFF then .rgba
      else if b0.toNat ≤ 0x3F then .index else if b0.toNat ≤ 0x7F then .diff
      else if b0.toNat ≤ 0xBF then .luma else .run) ∧
    chunkLength b0 = (if b0.toNat = 0xFE then 4 else if b0.toNat = 0xFF then 5
      else if b0.toNat ≤ 0x7F then 1 else if b0.toNat ≤ 0xBF then 2 else 1)

/-- R85 to R90: one word of each chunk kind, its fields worked out from the kind's encoding, decodes to the instruction
it stands for. The first three are also worked examples of the source (spec/95_test_vectors.md S1 to S3), the fourth is
VF23; the RGB and RGBA words are this statement's own. -/
def Obligations.SourceWordsDecode : Prop :=
  decode [0x46#8] = .chunk (.diff (-2) (-1) 0) [] ∧
  decode [0xBB#8, 0x01#8] = .chunk (.luma 19 27 20) [] ∧
  decode [0xE8#8] = .chunk (.run 41) [] ∧
  decode [0x35#8] = .chunk (.index 53) [] ∧
  decode [0xFE#8, 0x64#8, 0x65#8, 0x66#8] = .chunk (.rgb 100 101 102) [] ∧
  decode [0xFF#8, 0x5A#8, 0x5B#8, 0x5C#8, 0x5D#8] = .chunk (.rgba 90 91 92 93) []

/-- R85 to R91, R94: every well-formed chunk is read back from its own bytes, whatever follows them. -/
def Obligations.DecodeOfEncodeIsTheChunk : Prop :=
  ∀ (i : Instr) (rest : List Byte), i.wellFormed = true → decode (encode i ++ rest) = .chunk i rest

/-- R84 to R91: whatever the decoder reads is well formed, and its bytes are the ones it was read from. -/
def Obligations.EncodeOfDecodeIsTheBytes : Prop :=
  ∀ (bs : List Byte) (i : Instr) (rest : List Byte), decode bs = .chunk i rest →
    i.wellFormed = true ∧ encode i ++ rest = bs

/-- R92, R94: bytes are rejected only where bytes are missing; no first byte is illegal. -/
def Obligations.OnlyMissingBytesAreRejected : Prop :=
  decode [] = .rejected .noBytes ∧
  ∀ (b0 : Byte) (bs : List Byte),
    (bs.length + 1 < chunkLength b0 → decode (b0 :: bs) = .rejected (.truncated (kindOf b0))) ∧
    (chunkLength b0 ≤ bs.length + 1 → ∃ i, decode (b0 :: bs) = .chunk i (bs.drop (chunkLength b0 - 1)))

/-- R98: REPEAT n is made of legal RUNs, all of 62 but the last, which together are n pixels. -/
def Obligations.RepeatIsRunsOfTheCount : Prop :=
  ∀ n : Nat, 1 ≤ n →
    ∃ tail : List Instr,
      expandRepeat n = List.replicate (n / 62) (.run 62) ++ tail ∧
      ((n % 62 = 0 ∧ tail = []) ∨ (n % 62 ≠ 0 ∧ tail = [.run (n % 62)])) ∧
      (∀ i ∈ expandRepeat n, i.wellFormed = true) ∧
      ((expandRepeat n).map (fun i => match i with | .run k => k | _ => 0)).sum = n

/-! ### The six chunks (spec/43_chunk_decode.md) -/

/-- R171: RGB, its encoding and its execution. -/
def Obligations.RgbProducesAndStores : Prop :=
  ∀ (r g b : Byte) (s : State),
    decode [0xFE#8, r, g, b] = .chunk (.rgb r g b) [] ∧
    exec (.rgb r g b) s = .next { s with
      cache := cacheStore s.cache ⟨r, g, b, s.prev.a⟩
      out := s.out ++ [.pixel ⟨r, g, b, s.prev.a⟩]
      pixcnt := s.pixcnt + 1
      prev := ⟨r, g, b, s.prev.a⟩ }

/-- R172: RGBA, its encoding and its execution. -/
def Obligations.RgbaProducesAndStores : Prop :=
  ∀ (r g b a : Byte) (s : State),
    decode [0xFF#8, r, g, b, a] = .chunk (.rgba r g b a) [] ∧
    exec (.rgba r g b a) s = .next { s with
      cache := cacheStore s.cache ⟨r, g, b, a⟩
      out := s.out ++ [.pixel ⟨r, g, b, a⟩]
      pixcnt := s.pixcnt + 1
      prev := ⟨r, g, b, a⟩ }

/-- R173: INDEX, its encoding and its execution; the cache is not written. -/
def Obligations.IndexLooksUp : Prop :=
  ∀ (i : Fin 64) (s : State),
    decode [BitVec.ofNat 8 i.val] = .chunk (.index i) [] ∧
    exec (.index i) s = .next { s with
      out := s.out ++ [.pixel (cacheLookup s.cache i)]
      pixcnt := s.pixcnt + 1
      prev := cacheLookup s.cache i }

/-- R174: DIFF, its encoding and its execution; every channel is the sum mod 256, alpha is kept, the new pixel is
stored at its own hash. -/
def Obligations.DiffAddsDeltas : Prop :=
  (∀ c0 : Byte, 0x40 ≤ c0.toNat → c0.toNat ≤ 0x7F →
    decode [c0] = .chunk (.diff (((c0.toNat / 16 % 4 : Nat) : Int) - 2) (((c0.toNat / 4 % 4 : Nat) : Int) - 2)
      (((c0.toNat % 4 : Nat) : Int) - 2)) []) ∧
  ∀ (dr dg db : Int) (s : State),
    ∃ q : Pixel,
      (q.r.toNat : Int) = (s.prev.r.toNat + dr) % 256 ∧ (q.g.toNat : Int) = (s.prev.g.toNat + dg) % 256 ∧
      (q.b.toNat : Int) = (s.prev.b.toNat + db) % 256 ∧ q.a = s.prev.a ∧
      exec (.diff dr dg db) s = .next { s with
        cache := cacheStore s.cache q, out := s.out ++ [.pixel q], pixcnt := s.pixcnt + 1, prev := q }

/-- R175: LUMA, its encoding and its execution; as DIFF, for the deltas that its two bytes give. -/
def Obligations.LumaAddsDeltas : Prop :=
  (∀ c0 c1 : Byte, 0x80 ≤ c0.toNat → c0.toNat ≤ 0xBF →
    ∃ dr dg db : Int, decode [c0, c1] = .chunk (.luma dr dg db) [] ∧ dg = ((c0.toNat % 64 : Nat) : Int) - 32 ∧
      dr = dg + (((c1.toNat / 16 : Nat) : Int) - 8) ∧ db = dg + (((c1.toNat % 16 : Nat) : Int) - 8)) ∧
  ∀ (dr dg db : Int) (s : State),
    ∃ q : Pixel,
      (q.r.toNat : Int) = (s.prev.r.toNat + dr) % 256 ∧ (q.g.toNat : Int) = (s.prev.g.toNat + dg) % 256 ∧
      (q.b.toNat : Int) = (s.prev.b.toNat + db) % 256 ∧ q.a = s.prev.a ∧
      exec (.luma dr dg db) s = .next { s with
        cache := cacheStore s.cache q, out := s.out ++ [.pixel q], pixcnt := s.pixcnt + 1, prev := q }

/-- R176: RUN, its encoding and its execution; within the pixels still owed it emits `prev` n times, and `prev` and the
cache do not change. -/
def Obligations.RunRepeatsPrevious : Prop :=
  (∀ c0 : Byte, 0xC0 ≤ c0.toNat → c0.toNat ≤ 0xFD → decode [c0] = .chunk (.run (c0.toNat % 64 + 1)) []) ∧
  ∀ (n : Nat) (s : State), s.pixcnt.toNat + n ≤ s.npix.toNat →
    exec (.run n) s = .next { s with
      out := s.out ++ List.replicate n (.pixel s.prev)
      pixcnt := s.pixcnt + BitVec.ofNat 64 n }

/-- R225: a RUN past the pixels still owed is FormatError(PIXEL_COUNT), and none of its pixels is pushed. -/
def Obligations.RunOvershootIsAnError : Prop :=
  ∀ (n : Nat) (s : State), s.npix.toNat < s.pixcnt.toNat + n →
    exec (.run n) s = .next { s with
      errClass := .format
      errCode := .pixelCount
      out := s.out ++ [.abortMark .format .pixelCount]
      state := .error }

/-- R177: every non-RUN chunk emits exactly one pixel and sets `prev` to it; a RUN within the pixels still owed emits
n pixels, each of them `prev` (R176), and leaves `prev` unchanged. An emitted pixel is pushed and counted. -/
def Obligations.NonRunEmitsOnePixel : Prop :=
  (∀ (i : Instr) (s : State), i.kind ≠ .run →
    ∃ t, exec i s = .next t ∧ t.out = s.out ++ [.pixel t.prev] ∧ t.pixcnt = s.pixcnt + 1) ∧
  (∀ (n : Nat) (s : State), s.pixcnt.toNat + n ≤ s.npix.toNat →
    ∃ t, exec (.run n) s = .next t ∧ t.out = s.out ++ List.replicate n (.pixel s.prev) ∧
      t.pixcnt = s.pixcnt + BitVec.ofNat 64 n ∧ t.prev = s.prev)

/-- The frame of the six chunks (R171 to R176, "State written"): every register of the driver, the host registers, IN
and the host's side are unchanged; only a RUN can leave the job with an error; OUT is only appended to. -/
def Obligations.ChunkFrame : Prop :=
  ∀ (i : Instr) (s t : State), exec i s = .next t →
    t.run = s.run ∧ t.encState = s.encState ∧ t.npix = s.npix ∧ t.bytecnt = s.bytecnt ∧ t.dphase = s.dphase ∧
    t.opbuf = s.opbuf ∧ t.hdrbuf = s.hdrbuf ∧ t.jobMode = s.jobMode ∧ t.hdrValid = s.hdrValid ∧
    t.ctrlMode = s.ctrlMode ∧ t.ctrlIrqEn = s.ctrlIrqEn ∧ t.width = s.width ∧ t.height = s.height ∧
    t.channels = s.channels ∧ t.colorspace = s.colorspace ∧ t.inq = s.inq ∧ t.turns = s.turns ∧
    t.popped = s.popped ∧ t.reads = s.reads ∧
    ((t.state = s.state ∧ t.errClass = s.errClass ∧ t.errCode = s.errCode) ∨ i.kind = .run) ∧
    ∃ ts, t.out = s.out ++ ts

/-- The cache frame (R128, R130, R173, R176, R179): RGB, RGBA, DIFF and LUMA write exactly the slot of the new
pixel's hash; INDEX and RUN write none. -/
def Obligations.ChunkCacheFrame : Prop :=
  ∀ (i : Instr) (s t : State), exec i s = .next t → ∀ j : Fin 64,
    cacheLookup t.cache j =
      if i.kind ≠ .index ∧ i.kind ≠ .run ∧ j = hash t.prev then t.prev else cacheLookup s.cache j

/-! ### The decoder driver (spec/45_decoder.md) -/

/-- R224: the step that takes a chunk's last byte executes the chunk the buffer decodes to, on the state with the
token popped; around it, it records and counts the byte and moves the phase on, unless the chunk raised an error
(R275). This holds for the block's own step and for one the plan of moves names. -/
def Obligations.StepRunsTheDecodedChunk : Prop :=
  ∀ (s : State) (k : Fin 5) (b : Byte) (rest : List InToken) (ts : List Turn) (i : Instr) (after : List Byte),
    ((s.turns = [] ∧ ts = []) ∨ s.turns = .block :: ts) → s.state = .busy → s.jobMode = .decode →
    s.dphase = .chunk k → s.inq = .byte b :: rest → s.out.length + 62 ≤ Config.outDepth →
    chunkLength (s.opbuf.set k.val b k.isLt)[0] ≤ k.val + 1 →
    decode (s.opbuf.set k.val b k.isLt).toList = .chunk i after →
    i.wellFormed = true ∧
    step s = match exec i { s with inq := rest, turns := ts } with
      | .next t =>
        .next (if t.state = .busy then
          { t with
            opbuf := s.opbuf.set k.val b k.isLt
            bytecnt := s.bytecnt + 1
            dphase := if t.pixcnt = t.npix then .endm 0 else .chunk 0 }
          else t)
      | .fault f => .fault f
      | .refused w => .refused w

/-- R178: the steps that take a chunk's earlier bytes write only `opbuf`, `bytecnt` and `dphase`. -/
def Obligations.EarlierChunkBytesOnlyBuffer : Prop :=
  ∀ (s : State) (k : Fin 5) (b : Byte) (rest : List InToken),
    s.turns = [] → s.state = .busy → s.jobMode = .decode → s.dphase = .chunk k → s.inq = .byte b :: rest →
    s.out.length + 62 ≤ Config.outDepth → k.val + 1 < chunkLength (s.opbuf.set k.val b k.isLt)[0] →
    ∃ h : k.val + 1 < 5,
      step s = .next { s with
        inq := rest
        opbuf := s.opbuf.set k.val b k.isLt
        bytecnt := s.bytecnt + 1
        dphase := .chunk ⟨k.val + 1, h⟩ }

/-- R221: HDR(k) for k below 13 takes one byte and checks nothing. -/
def Obligations.HeaderBytesAreCollected : Prop :=
  ∀ (s : State) (k : Fin 14) (b : Byte) (rest : List InToken),
    s.turns = [] → s.state = .busy → s.jobMode = .decode → s.dphase = .hdr k → s.inq = .byte b :: rest →
    s.out.length < Config.outDepth → k.val < 13 →
    ∃ h : k.val + 1 < 14,
      step s = .next { s with
        inq := rest
        hdrbuf := s.hdrbuf.set k.val b k.isLt
        bytecnt := s.bytecnt + 1
        dphase := .hdr ⟨k.val + 1, h⟩ }

/-- R222, R223, R275: the 14th header byte either fills the configuration registers from the header and opens the
chunk phase, or ends the job with the header's error and commits nothing else. -/
def Obligations.FourteenthByteChecksHeader : Prop :=
  ∀ (s : State) (b : Byte) (rest : List InToken),
    s.turns = [] → s.state = .busy → s.jobMode = .decode → s.dphase = .hdr 13 → s.inq = .byte b :: rest →
    s.out.length < Config.outDepth →
    (∀ e, headerDecode (s.hdrbuf.set 13 b) = .raised e →
      step s = .next { s with
        inq := rest, errClass := classOf e, errCode := e, out := s.out ++ [.abortMark (classOf e) e],
        state := .error }) ∧
    (∀ hd, headerDecode (s.hdrbuf.set 13 b) = .ok hd →
      step s = .next { s with
        inq := rest, hdrbuf := s.hdrbuf.set 13 b, bytecnt := s.bytecnt + 1, width := hd.width,
        height := hd.height, channels := hd.channels, colorspace := hd.colorspace,
        npix := BitVec.ofNat 64 (hd.width.toNat * hd.height.toNat), hdrValid := true, dphase := .chunk 0 })

/-- R227: ENDM(k) takes one byte; a byte that differs ends the job with FormatError(END_MARKER); the eighth matching
byte ends it with DONE_MARK. -/
def Obligations.EndMarkerIsChecked : Prop :=
  ∀ (s : State) (k : Fin 8) (b : Byte) (rest : List InToken),
    s.turns = [] → s.state = .busy → s.jobMode = .decode → s.dphase = .endm k → s.inq = .byte b :: rest →
    s.out.length < Config.outDepth →
    (b ≠ (if k.val = 7 then 1#8 else 0#8) →
      step s = .next { s with
        inq := rest, errClass := .format, errCode := .endMarker, out := s.out ++ [.abortMark .format .endMarker],
        state := .error }) ∧
    (b = 0#8 → (h : k.val + 1 < 8) →
      step s = .next { s with inq := rest, bytecnt := s.bytecnt + 1, dphase := .endm ⟨k.val + 1, h⟩ }) ∧
    (b = 1#8 → k.val = 7 →
      step s = .next { s with
        inq := rest, bytecnt := s.bytecnt + 1, out := s.out ++ [.doneMark], state := .done })

/-- R229: EOS in each phase of the decoder, with the error of the rule's table. -/
def Obligations.EosEndsTheDecodeJob : Prop :=
  ∀ (s : State) (rest : List InToken), s.turns = [] → s.state = .busy → s.jobMode = .decode →
    s.inq = .eos :: rest → s.out.length + roomNeeded s ≤ Config.outDepth →
    ∃ cls code, step s = .next { s with
        inq := rest, errClass := cls, errCode := code, out := s.out ++ [.abortMark cls code], state := .error } ∧
      (∀ k, s.dphase = .hdr k → cls = .truncation ∧ code = .header) ∧
      (∀ k, s.dphase = .chunk k → k.val = 0 → cls = .truncation ∧ code = .pixels) ∧
      (∀ k, s.dphase = .chunk k → k.val ≠ 0 → cls = .truncation ∧ code = .chunk) ∧
      (∀ k, s.dphase = .endm k → cls = .format ∧ code = .endMarker)

/-! ### HeaderCodec (spec/40_header.md) -/

/-- R110: the four tests in order; the first failure is the result. -/
def Obligations.HeaderCheckOrder : Prop :=
  ∀ (w h : Word32) (c s : Byte),
    headerCheck ⟨w, h, c, s⟩ =
      if ¬(c.toNat = 3 ∨ c.toNat = 4) then .raised .channels
      else if ¬(s.toNat = 0 ∨ s.toNat = 1) then .raised .colorspace
      else if ¬(1 ≤ w.toNat ∧ w.toNat ≤ 2147483647) then .raised .width
      else if ¬(1 ≤ h.toNat ∧ h.toNat ≤ 2147483647) then .raised .height
      else .ok ⟨w, h, c, s⟩

/-- R111: a legal header's 14 bytes; an illegal one raises the error of the check. -/
def Obligations.HeaderEncodeWritesFourteenBytes : Prop :=
  ∀ (w h : Word32) (c s : Byte),
    (∀ e, headerCheck ⟨w, h, c, s⟩ = .raised e → headerEncode ⟨w, h, c, s⟩ = .raised e) ∧
    (headerCheck ⟨w, h, c, s⟩ = .ok ⟨w, h, c, s⟩ →
      headerEncode ⟨w, h, c, s⟩ = .ok [0x71#8, 0x6F#8, 0x69#8, 0x66#8,
        BitVec.ofNat 8 (w.toNat / 2 ^ 24), BitVec.ofNat 8 (w.toNat / 2 ^ 16), BitVec.ofNat 8 (w.toNat / 2 ^ 8),
        BitVec.ofNat 8 w.toNat, BitVec.ofNat 8 (h.toNat / 2 ^ 24), BitVec.ofNat 8 (h.toNat / 2 ^ 16),
        BitVec.ofNat 8 (h.toNat / 2 ^ 8), BitVec.ofNat 8 h.toNat, c, s])

/-- R113: 14 bytes whose first four are not "qoif" are FormatError(MAGIC), whatever the other fields hold. -/
def Obligations.WrongMagicIsAnError : Prop :=
  ∀ b : Vector Byte 14, ¬(b[0] = 0x71#8 ∧ b[1] = 0x6F#8 ∧ b[2] = 0x69#8 ∧ b[3] = 0x66#8) →
    headerDecode b = .raised .magic

/-- R114: HeaderDecode inverts HeaderEncode on every legal header, and HeaderEncode inverts HeaderDecode on every
14 bytes it accepts. -/
def Obligations.HeaderRoundTrip : Prop :=
  (∀ hd : Header, headerCheck hd = .ok hd →
    ∃ b : Vector Byte 14, headerEncode hd = .ok b.toList ∧ headerDecode b = .ok hd) ∧
  (∀ (b : Vector Byte 14) (hd : Header), headerDecode b = .ok hd → headerEncode hd = .ok b.toList)

/-! ### The cache hash and the encode side (spec/41_color_cache.md, spec/42_chunk_encode.md) -/

/-- R125, R126: the hash is the weighted sum mod 64, the sum is at most 6630, and the low six bits of the channels
decide it. -/
def Obligations.HashIsTheWeightedSum : Prop :=
  ∀ p : Pixel,
    (hash p).val = (3 * p.r.toNat + 5 * p.g.toNat + 7 * p.b.toNat + 11 * p.a.toNat) % 64 ∧
    3 * p.r.toNat + 5 * p.g.toNat + 7 * p.b.toNat + 11 * p.a.toNat ≤ 6630 ∧
    ∀ q : Pixel, p.r.toNat % 64 = q.r.toNat % 64 → p.g.toNat % 64 = q.g.toNat % 64 →
      p.b.toNat % 64 = q.b.toNat % 64 → p.a.toNat % 64 = q.a.toNat % 64 → hash p = hash q

/-- R141, R174: a delta is the signed byte congruent to the difference, and adding it to the old channel mod 256 gives
the new channel back. -/
def Obligations.DeltaIsTheSignedDifference : Prop :=
  ∀ new old : Byte,
    -128 ≤ channelDelta new old ∧ channelDelta new old ≤ 127 ∧
    (channelDelta new old - ((new.toNat : Int) - old.toNat)) % 256 = 0 ∧
    addDelta old (channelDelta new old) = new

/-- R148, R149, R150, R152: each formatter gives the chunk's bytes exactly when its operands are in their bands, and
RangeError(RANGE) otherwise. -/
def Obligations.FormattersWriteOrRaise : Prop :=
  (∀ dr dg db : Int, fmtDiff dr dg db =
    if (Instr.diff dr dg db).wellFormed = true then .ok (encode (.diff dr dg db)) else .raised .range) ∧
  (∀ dr dg db : Int, fmtLuma dr dg db =
    if (Instr.luma dr dg db).wellFormed = true then .ok (encode (.luma dr dg db)) else .raised .range) ∧
  (∀ n : Nat, fmtRun n = if (Instr.run n).wellFormed = true then .ok (encode (.run n)) else .raised .range) ∧
  (∀ i : Fin 64, fmtIndex i.val = .ok (encode (.index i))) ∧
  (∀ i : Int, i < 0 ∨ 63 < i → fmtIndex i = .raised .range) ∧
  (∀ n : Int, n < 1 ∨ 62 < n → fmtRun n = .raised .range)

/-- R142: a pixel that its slot holds is encoded as INDEX of the slot, and the cache is not modified. -/
def Obligations.CacheHitIsIndex : Prop :=
  ∀ (prev p : Pixel) (cache : Cache), cacheLookup cache (hash p) = p →
    encodePixel prev cache p = (.ok [BitVec.ofNat 8 (hash p).val], cache)

/-- R143 to R145, R140: on a miss with equal alpha, DIFF where the deltas fit it, else LUMA where they fit it; the
pixel is stored. -/
def Obligations.SmallDeltasAreDiffOrLuma : Prop :=
  ∀ (prev p : Pixel) (cache : Cache) (dr dg db : Int),
    cacheLookup cache (hash p) ≠ p → p.a = prev.a → dr = channelDelta p.r prev.r →
    dg = channelDelta p.g prev.g → db = channelDelta p.b prev.b →
    ((Instr.diff dr dg db).wellFormed = true →
      encodePixel prev cache p = (.ok (encode (.diff dr dg db)), cacheStore cache p)) ∧
    ((Instr.diff dr dg db).wellFormed = false → (Instr.luma dr dg db).wellFormed = true →
      encodePixel prev cache p = (.ok (encode (.luma dr dg db)), cacheStore cache p))

/-- R143, R146, R147: on a miss, RGBA where alpha changed, and RGB where alpha is equal and neither DIFF nor LUMA
fits; the pixel is stored. -/
def Obligations.OtherPixelsAreRgbOrRgba : Prop :=
  ∀ (prev p : Pixel) (cache : Cache), cacheLookup cache (hash p) ≠ p →
    (p.a ≠ prev.a → encodePixel prev cache p = (.ok [0xFF#8, p.r, p.g, p.b, p.a], cacheStore cache p)) ∧
    (∀ dr dg db, p.a = prev.a → dr = channelDelta p.r prev.r → dg = channelDelta p.g prev.g →
      db = channelDelta p.b prev.b → (Instr.diff dr dg db).wellFormed = false →
      (Instr.luma dr dg db).wellFormed = false →
      encodePixel prev cache p = (.ok [0xFE#8, p.r, p.g, p.b], cacheStore cache p))

/-- R154: for every pixel, EncodePixel returns exactly one chunk, and executing that chunk from the same `prev` and
cache produces the pixel and the same cache. -/
def Obligations.ChunkRoundTrip : Prop :=
  ∀ (s : State) (p : Pixel),
    ∃ (bs : List Byte) (i : Instr) (cache : Cache),
      encodePixel s.prev s.cache p = (.ok bs, cache) ∧ decode bs = .chunk i [] ∧ i.kind ≠ .run ∧
      exec i s = .next { s with
        prev := p, cache := cache, pixcnt := s.pixcnt + 1, out := s.out ++ [.pixel p] }

/-! ### The encoder driver (spec/44_encoder.md) -/

/-- R197, R198: a pixel equal to `prev`. It is absorbed into the run; the 62nd flushes RUN 62; the last one flushes the
run it is counted in, and the end marker and DONE_MARK follow (R200). -/
def Obligations.EqualPixelRunsOn : Prop :=
  ∀ (s : State) (rest : List InToken),
    s.turns = [] → s.state = .busy → s.jobMode = .encode → s.pixcnt.toNat < s.npix.toNat →
    s.inq = .pixel s.prev :: rest → s.out.length + 15 ≤ Config.outDepth → s.run.toNat ≤ 61 →
    (s.run.toNat ≤ 60 → s.pixcnt ≠ s.npix - 1 →
      step s = .next { s with
        inq := rest, run := s.run + 1, encState := .inRun, pixcnt := s.pixcnt + 1 }) ∧
    (s.run.toNat = 61 → s.pixcnt ≠ s.npix - 1 →
      step s = .next { s with
        inq := rest, run := 0, encState := .scanning, pixcnt := s.pixcnt + 1, bytecnt := s.bytecnt + 1,
        out := s.out ++ [.byte 0xFD#8] }) ∧
    (s.pixcnt = s.npix - 1 →
      step s = .next { s with
        inq := rest, run := 0, encState := .scanning, pixcnt := s.pixcnt + 1, bytecnt := s.bytecnt + 9,
        out := s.out ++ [.byte (BitVec.ofNat 8 (0xC0 + s.run.toNat)), .byte 0, .byte 0, .byte 0, .byte 0, .byte 0,
          .byte 0, .byte 0, .byte 1, .doneMark],
        state := .done })

/-- R197, R198, R200: a pixel that differs from `prev`. A held run is flushed first, then the pixel's own chunk; the
last pixel is followed by the end marker and DONE_MARK. -/
def Obligations.DifferingPixelEndsTheRun : Prop :=
  ∀ (s : State) (p : Pixel) (rest : List InToken) (chunk : List Byte) (cache : Cache) (bs : List Byte),
    s.turns = [] → s.state = .busy → s.jobMode = .encode → s.pixcnt.toNat < s.npix.toNat →
    s.inq = .pixel p :: rest → s.out.length + 15 ≤ Config.outDepth → s.run.toNat ≤ 61 → p ≠ s.prev →
    encodePixel s.prev s.cache p = (.ok chunk, cache) →
    bs = (if s.run.toNat = 0 then [] else [BitVec.ofNat 8 (0xC0 + (s.run.toNat - 1))]) ++ chunk →
    (s.pixcnt ≠ s.npix - 1 →
      step s = .next { s with
        inq := rest, prev := p, cache := cache, run := 0, encState := .scanning, pixcnt := s.pixcnt + 1,
        bytecnt := s.bytecnt + BitVec.ofNat 64 bs.length, out := s.out ++ bs.map .byte }) ∧
    (s.pixcnt = s.npix - 1 →
      step s = .next { s with
        inq := rest, prev := p, cache := cache, run := 0, encState := .scanning, pixcnt := s.pixcnt + 1,
        bytecnt := s.bytecnt + BitVec.ofNat 64 (bs.length + 8),
        out := s.out ++ (bs ++ [0, 0, 0, 0, 0, 0, 0, 1]).map .byte ++ [.doneMark], state := .done })

/-- R199: EOS while pixels are owed is TruncationError(INPUT_SHORT); a held run is not flushed and no end marker is
pushed. -/
def Obligations.EosEndsTheEncodeJob : Prop :=
  ∀ (s : State) (rest : List InToken),
    s.turns = [] → s.state = .busy → s.jobMode = .encode → s.pixcnt.toNat < s.npix.toNat → s.inq = .eos :: rest →
    s.out.length + 15 ≤ Config.outDepth →
    step s = .next { s with
      inq := rest, errClass := .truncation, errCode := .inputShort,
      out := s.out ++ [.abortMark .truncation .inputShort], state := .error }

/-! ### The block's step as a whole (spec/46_control.md R256, spec/60_exceptions.md) -/

/-- R256, R201, R230, R277: without a BUSY job, without a token, without room, or (encoding) with all pixels taken, the
block has no step, and its state is kept (R286). That the block's move is then a step that changes nothing is the
model's choice (log 2). -/
def Obligations.NoStepUnlessEnabled : Prop :=
  ∀ s : State,
    (s.state ≠ .busy ∨ s.inq = [] ∨ Config.outDepth < s.out.length + roomNeeded s ∨
      (s.jobMode = .encode ∧ s.npix.toNat ≤ s.pixcnt.toNat)) →
    blockStep s = .next s

/-- R256, R67: a block step pops at most one token from IN, only appends to OUT, and pushes at most ROOM tokens. -/
def Obligations.BlockStepFitsItsRoom : Prop :=
  ∀ s t : State, blockStep s = .next t →
    (t.inq = s.inq ∨ ∃ tok, s.inq = tok :: t.inq) ∧
    ∃ ts, t.out = s.out ++ ts ∧ ts.length ≤ roomNeeded s

/-- The frame of a block step (R31, R44, R250): it never touches CTRL, the job's mode or the host's side, and it writes
WIDTH, HEIGHT, CHANNELS and COLORSPACE only in the step that accepts a header (R223). -/
def Obligations.BlockStepFrame : Prop :=
  ∀ s t : State, blockStep s = .next t →
    t.ctrlMode = s.ctrlMode ∧ t.ctrlIrqEn = s.ctrlIrqEn ∧ t.jobMode = s.jobMode ∧ t.turns = s.turns ∧
    t.popped = s.popped ∧ t.reads = s.reads ∧
    ((t.width = s.width ∧ t.height = s.height ∧ t.channels = s.channels ∧ t.colorspace = s.colorspace ∧
      t.npix = s.npix ∧ t.hdrValid = s.hdrValid) ∨
      (s.jobMode = .decode ∧ s.dphase = .hdr 13 ∧ t.dphase = .chunk 0))

/-- R275: a block step that ends in ERROR has popped the offending token, recorded the error, pushed ABORT_MARK, and
changed nothing else. -/
def Obligations.ErrorsArePrecise : Prop :=
  ∀ s t : State, s.state = .busy → blockStep s = .next t → t.state = .error →
    ∃ (tok : InToken) (rest : List InToken) (e : ErrCode), s.inq = tok :: rest ∧ e ≠ .none ∧
      t = { s with
        inq := rest, errClass := classOf e, errCode := e, out := s.out ++ [.abortMark (classOf e) e],
        state := .error }

/-- R272: no host move but an encode START raises an error, and then one of the codes 2 to 5. That the job is then an
encode job whatever the earlier job was rests on the model's reading of a failing START (log 4). -/
def Obligations.HostMovesRaiseOnlyAtStart : Prop :=
  ∀ (e : HostEvent) (s t : State), hostMove e s = .next t → s.state ≠ .error → t.state = .error →
    ∃ v : Word32, e = .write 4 0 v ∧ v.getLsbD 0 = true ∧ v.getLsbD 1 = false ∧ s.state ≠ .busy ∧
      t.jobMode = .encode ∧ (t.errCode = .channels ∨ t.errCode = .colorspace ∨ t.errCode = .width ∨
        t.errCode = .height)

/-- R277: an ERROR state is left only by a write of ACK or START, or by reset; the block has no step in it. -/
def Obligations.ErrorIsLeftOnlyByTheHost : Prop :=
  ∀ s t : State, s.state = .error → step s = .next t → t.state ≠ .error →
    ∃ (e : HostEvent) (ts : List Turn), s.turns = .host e :: ts ∧
      (e = .reset ∨ ∃ v : Word32, e = .write 4 0 v ∧ (v.getLsbD 0 = true ∨ v.getLsbD 2 = true))

/-- R271: the number and the class of every error code; the numbers differ, and 13 to 15 are not among them. -/
def Obligations.ErrorCodeTable : Prop :=
  (codeBits .none, classOf .none) = (0, .none) ∧ (codeBits .magic, classOf .magic) = (1, .format) ∧
  (codeBits .channels, classOf .channels) = (2, .format) ∧
  (codeBits .colorspace, classOf .colorspace) = (3, .format) ∧
  (codeBits .width, classOf .width) = (4, .format) ∧ (codeBits .height, classOf .height) = (5, .format) ∧
  (codeBits .endMarker, classOf .endMarker) = (6, .format) ∧
  (codeBits .pixelCount, classOf .pixelCount) = (7, .format) ∧
  (codeBits .header, classOf .header) = (8, .truncation) ∧
  (codeBits .chunk, classOf .chunk) = (9, .truncation) ∧
  (codeBits .pixels, classOf .pixels) = (10, .truncation) ∧
  (codeBits .inputShort, classOf .inputShort) = (11, .truncation) ∧
  (codeBits .range, classOf .range) = (12, .range) ∧
  (∀ e : ErrCode, (codeBits e).toNat ≤ 12) ∧ ∀ e f : ErrCode, codeBits e = codeBits f → e = f

/-! ### The host's operations (spec/46_control.md, spec/10_state.md) -/

/-- R252: a decode START, from every state that is not BUSY: the whole state of the job is initialised, and the
configuration registers keep their values. That START also empties the model's own record of the host's pops is the
model's choice (log 5). -/
def Obligations.DecodeStartInitialises : Prop :=
  ∀ (v : Word32) (s : State), v.getLsbD 0 = true → v.getLsbD 1 = true → s.state ≠ .busy →
    move (.host (.write 4 0x00 v)) s = .next { s with
      ctrlMode := .decode, ctrlIrqEn := v.getLsbD 3, jobMode := .decode, inq := [], out := [],
      prev := ⟨0, 0, 0, 255⟩, cache := Vector.replicate 64 ⟨0, 0, 0, 0⟩, run := 0, encState := .scanning,
      npix := 0, pixcnt := 0, bytecnt := 0, dphase := .hdr 0, opbuf := Vector.replicate 5 0,
      hdrbuf := Vector.replicate 14 0, errClass := .none, errCode := .none, hdrValid := false, state := .busy,
      turns := [], popped := [] }

/-- R252, R196: an encode START, from every state that is not BUSY. With a legal configuration the whole state of the
job is initialised, the header's 14 bytes are pushed and the job is BUSY. With an illegal one it ends in ERROR and pushes
no header byte; that the job's initialisation stands in that case is the model's reading (log 4). The configuration
registers keep their values. That START also empties the model's own record of the host's pops is the model's choice
(log 5). -/
def Obligations.EncodeStartPushesTheHeader : Prop :=
  ∀ (v : Word32) (s : State), v.getLsbD 0 = true → v.getLsbD 1 = false → s.state ≠ .busy →
    (∀ hb, headerEncode ⟨s.width, s.height, s.channels, s.colorspace⟩ = .ok hb →
      ∃ n : Count, n.toNat = s.width.toNat * s.height.toNat ∧
        move (.host (.write 4 0x00 v)) s = .next { s with
          ctrlMode := .encode, ctrlIrqEn := v.getLsbD 3, jobMode := .encode, inq := [], out := hb.map .byte,
          prev := ⟨0, 0, 0, 255⟩, cache := Vector.replicate 64 ⟨0, 0, 0, 0⟩, run := 0, encState := .scanning,
          npix := n, pixcnt := 0, bytecnt := 14, dphase := .hdr 0, opbuf := Vector.replicate 5 0,
          hdrbuf := Vector.replicate 14 0, errClass := .none, errCode := .none, hdrValid := true, state := .busy,
          turns := [], popped := [] }) ∧
    (∀ e, headerEncode ⟨s.width, s.height, s.channels, s.colorspace⟩ = .raised e →
      move (.host (.write 4 0x00 v)) s = .next { s with
        ctrlMode := .encode, ctrlIrqEn := v.getLsbD 3, jobMode := .encode, inq := [], out := [.abortMark .format e],
        prev := ⟨0, 0, 0, 255⟩, cache := Vector.replicate 64 ⟨0, 0, 0, 0⟩, run := 0, encState := .scanning,
        npix := 0, pixcnt := 0, bytecnt := 0, dphase := .hdr 0, opbuf := Vector.replicate 5 0,
        hdrbuf := Vector.replicate 14 0, errClass := .format, errCode := e, hdrValid := false, state := .error,
        turns := [], popped := [] })

/-- R277, R252: a job's start does not depend on anything an earlier job left, only on the configuration registers.
For an illegal encode configuration this rests on the model's reading of a failing START (log 4); that it does not
depend on what the host popped before rests on the model's choice that START empties that record (log 5). -/
def Obligations.StartForgetsTheEarlierJob : Prop :=
  ∀ (v : Word32) (s t : State), v.getLsbD 0 = true → s.state ≠ .busy → t.state ≠ .busy →
    s.width = t.width → s.height = t.height → s.channels = t.channels → s.colorspace = t.colorspace →
    s.turns = t.turns → s.reads = t.reads → hostMove (.write 4 0x00 v) s = hostMove (.write 4 0x00 v) t

/-- R253, and R250 for CTRL: a CTRL write that performs no START (its START bit is 0, or the block is BUSY, where a
START is ignored). MODE and IRQ_EN take their bits, and a running job keeps its `job_mode`. With ACK set, DONE and ERROR
return to IDLE and all else is kept, and in IDLE and BUSY nothing more happens; with ACK clear nothing more happens in
any state. -/
def Obligations.AckReturnsToIdle : Prop :=
  ∀ (v : Word32) (s : State), (v.getLsbD 0 = false ∨ s.state = .busy) →
    (v.getLsbD 2 = true → (s.state = .done ∨ s.state = .error) →
      hostWrite 0x00 v s = { s with
        ctrlMode := modeOf (v.getLsbD 1), ctrlIrqEn := v.getLsbD 3, state := .idle }) ∧
    (v.getLsbD 2 = true → (s.state = .idle ∨ s.state = .busy) →
      hostWrite 0x00 v s = { s with ctrlMode := modeOf (v.getLsbD 1), ctrlIrqEn := v.getLsbD 3 }) ∧
    (v.getLsbD 2 = false →
      hostWrite 0x00 v s = { s with ctrlMode := modeOf (v.getLsbD 1), ctrlIrqEn := v.getLsbD 3 })

/-- R250: writes at the legal offsets other than CTRL. The configuration registers take the value while not BUSY and
ignore it while BUSY; every other offset ignores it. -/
def Obligations.ConfigurationWrites : Prop :=
  ∀ (off : Nat) (v : Word32) (s : State), off % 4 = 0 → off < 0x100 → off ≠ 0 →
    move (.host (.write 4 off v)) s = .next { s with
      turns := []
      width := if off = 0x08 ∧ s.state ≠ .busy then v else s.width
      height := if off = 0x0C ∧ s.state ≠ .busy then v else s.height
      channels := if off = 0x10 ∧ s.state ≠ .busy then BitVec.ofNat 8 v.toNat else s.channels
      colorspace := if off = 0x14 ∧ s.state ≠ .busy then BitVec.ofNat 8 v.toNat else s.colorspace }

/-- R36: the fields of STATUS as the host reads it, and the zeros of its reserved bits. -/
def Obligations.StatusFields : Prop :=
  ∀ s : State, ∃ v, hostRead 0x04 s = v ∧
    v.extractLsb 1 0 = (match s.state with | .idle => 0#2 | .busy => 1#2 | .done => 2#2 | .error => 3#2) ∧
    v.getLsbD 2 = decide (s.jobMode = .decode) ∧
    v.getLsbD 3 = decide (s.encState = .inRun ∧ s.jobMode = .encode) ∧
    v.extractLsb 5 4 =
      (match s.errClass with | .none => 0#2 | .format => 1#2 | .truncation => 2#2 | .range => 3#2) ∧
    v.extractLsb 7 6 = 0#2 ∧ v.extractLsb 11 8 = codeBits s.errCode ∧ v.getLsbD 12 = s.hdrValid ∧
    v.extractLsb 31 13 = 0#19

/-- R251: what a legal read returns at every other offset; a read changes nothing of the block. -/
def Obligations.RegisterReads : Prop :=
  ∀ (off : Nat) (s : State), off % 4 = 0 → off < 0x100 →
    move (.host (.read 4 off)) s = .next { s with turns := [], reads := s.reads ++ [hostRead off s] } ∧
    (off = 0x00 → (hostRead off s).toNat =
      (if s.ctrlIrqEn then 8 else 0) + (if s.ctrlMode = .decode then 2 else 0)) ∧
    (off = 0x08 → hostRead off s = s.width) ∧ (off = 0x0C → hostRead off s = s.height) ∧
    (off = 0x10 → (hostRead off s).toNat = s.channels.toNat) ∧
    (off = 0x14 → (hostRead off s).toNat = s.colorspace.toNat) ∧
    (off = 0x18 → (hostRead off s).toNat = s.pixcnt.toNat % 2 ^ 32) ∧
    (off = 0x1C → (hostRead off s).toNat = s.pixcnt.toNat / 2 ^ 32) ∧
    (off = 0x20 → (hostRead off s).toNat = s.bytecnt.toNat % 2 ^ 32) ∧
    (off = 0x24 → (hostRead off s).toNat = s.bytecnt.toNat / 2 ^ 32) ∧
    (0x28 ≤ off → hostRead off s = 0)

/-- R65: an access that is not 32 bits wide, not at a multiple of 4, or not below 0x100 is refused. -/
def Obligations.MalformedAccessIsRefused : Prop :=
  ∀ (size off : Nat) (v : Word32) (s : State), (size ≠ 4 ∨ off % 4 ≠ 0 ∨ 0x100 ≤ off) →
    move (.host (.read size off)) s = .refused .malformedAccess ∧
    move (.host (.write size off v)) s = .refused .malformedAccess

/-- R254: a push appends the token to IN exactly when the block is BUSY, IN has a free place, and the token is of the
job's kind; any other push is refused. -/
def Obligations.PushAppendsOrIsRefused : Prop :=
  ∀ (t : InToken) (s : State),
    ((s.state = .busy ∧ s.inq.length < Config.inDepth ∧
        (t = .eos ∨ (∃ p, t = .pixel p ∧ s.jobMode = .encode) ∨ (∃ b, t = .byte b ∧ s.jobMode = .decode))) →
      move (.host (.push t)) s = .next { s with turns := [], inq := s.inq ++ [t] }) ∧
    (¬(s.state = .busy ∧ s.inq.length < Config.inDepth ∧
        (t = .eos ∨ (∃ p, t = .pixel p ∧ s.jobMode = .encode) ∨ (∃ b, t = .byte b ∧ s.jobMode = .decode))) →
      ∃ w, move (.host (.push t)) s = .refused w)

/-- R255: a pop removes and returns the oldest token of OUT, in every state. The model keeps the popped token in a
field of its own (log 5), and refuses a pop from an empty OUT (log 8). -/
def Obligations.PopTakesTheOldest : Prop :=
  ∀ s : State,
    (∀ t rest, s.out = t :: rest →
      move (.host .pop) s = .next { s with turns := [], out := rest, popped := s.popped ++ [t] }) ∧
    (s.out = [] → move (.host .pop) s = .refused .popWhileEmpty)

/-- R44: no register read tells two states apart that differ only in `prev`, `cache`, `run`, `npix`, `dphase`, `opbuf`
and `hdrbuf`. -/
def Obligations.HiddenStateIsNotReadable : Prop :=
  ∀ (s t : State), sameButHidden s t → ∀ off : Nat, hostRead off s = hostRead off t

/-- R46: the IRQ line, and that it falls at ACK, at clearing IRQ_EN, at a decode START and at reset. -/
def Obligations.IrqLine : Prop :=
  ∀ s : State,
    (irq s = true ↔ s.ctrlIrqEn = true ∧ (s.state = .done ∨ s.state = .error)) ∧
    irq State.reset = false ∧ irq (resetBlock s) = false ∧
    ∀ v : Word32,
      (v.getLsbD 0 = false → v.getLsbD 2 = true → irq (hostWrite 0x00 v s) = false) ∧
      (v.getLsbD 3 = false → irq (hostWrite 0x00 v s) = false) ∧
      (v.getLsbD 0 = true → v.getLsbD 1 = true → s.state ≠ .busy → irq (hostWrite 0x00 v s) = false)

/-- R300, R301: the reset event sets every piece of the block's state to its reset value, whatever the state, and
pushes no mark. That the host's side is kept is the model's choice (log 6). -/
def Obligations.ResetSetsEverything : Prop :=
  ∀ s : State, move (.host .reset) s = .next {
    prev := ⟨0, 0, 0, 255⟩, cache := Vector.replicate 64 ⟨0, 0, 0, 0⟩, run := 0, encState := .scanning, npix := 0,
    pixcnt := 0, bytecnt := 0, dphase := .hdr 0, opbuf := Vector.replicate 5 0, hdrbuf := Vector.replicate 14 0,
    state := .idle, jobMode := .encode, errClass := .none, errCode := .none, hdrValid := false,
    ctrlMode := .encode, ctrlIrqEn := false, width := 0, height := 0, channels := 0, colorspace := 0, inq := [],
    out := [], turns := [], popped := s.popped, reads := s.reads }

/-! ### Invariants and the round trip -/

/-- The invariant holds right after reset, where every register of the window reads 0 (R35). -/
def Obligations.ResetMeetsTheInvariant : Prop :=
  Inv State.reset ∧ ∀ off : Nat, off % 4 = 0 → off < 0x100 → hostRead off State.reset = 0

/-- Every step keeps the invariant (R24, R25, R26, R36, R129, R226, R228, R254, R256, R271, R275, R278). What it says of OUT and of
the job after an encode START that fails rests on the model's reading of such a START (log 4). -/
def Obligations.EveryStepKeepsTheInvariant : Prop :=
  ∀ s t : State, Inv s → step s = .next t → Inv t

/-- R155, R274: under the invariant the block never reaches a RangeError, and never stops: its move is always a next
state, one that changes nothing where the block has no step (log 2). -/
def Obligations.BlockNeverFaultsUnderTheInvariant : Prop :=
  ∀ s : State, Inv s → ∃ t, blockStep s = .next t

/-- R231: for every legal image, an encode job run by a host that pops all output ends DONE, and its bytes, given to a
decode job run in the same way, come back as the same pixels, with the header's fields in the registers. The two jobs
may start from any states that are not BUSY. It speaks of one interleaving of host and block. -/
def Obligations.ImageRoundTrip : Prop :=
  ∀ (hd : Header) (px : List Pixel) (s0 s1 : State), headerCheck hd = .ok hd →
    px.length = hd.width.toNat * hd.height.toNat → s0.state ≠ .busy → s1.state ≠ .busy →
    ∃ (e d : State) (bs : List Byte),
      encodeSession hd px s0 = .next e ∧ e.state = .done ∧ validOutput e.popped = some (bs.map .byte) ∧
      decodeSession bs s1 = .next d ∧ d.state = .done ∧ validOutput d.popped = some (px.map .pixel) ∧
      d.width = hd.width ∧ d.height = hd.height ∧ d.channels = hd.channels ∧ d.colorspace = hd.colorspace
end

