-- ==== Sys2Proof/Laws/State.lean ====
section
/-! SUPPORT. What each named update of the state does to each field: one lemma per field per update, true by unfolding
the update once, so that no later proof unfolds it. -/

namespace Sys2Proof.Machine

/-! `outPush` -/

@[simp] theorem outPush_prev (t : OutToken) (s : State) : (outPush t s).prev = s.prev := rfl
@[simp] theorem outPush_cache (t : OutToken) (s : State) : (outPush t s).cache = s.cache := rfl
@[simp] theorem outPush_run (t : OutToken) (s : State) : (outPush t s).run = s.run := rfl
@[simp] theorem outPush_encState (t : OutToken) (s : State) : (outPush t s).encState = s.encState := rfl
@[simp] theorem outPush_npix (t : OutToken) (s : State) : (outPush t s).npix = s.npix := rfl
@[simp] theorem outPush_pixcnt (t : OutToken) (s : State) : (outPush t s).pixcnt = s.pixcnt := rfl
@[simp] theorem outPush_bytecnt (t : OutToken) (s : State) : (outPush t s).bytecnt = s.bytecnt := rfl
@[simp] theorem outPush_dphase (t : OutToken) (s : State) : (outPush t s).dphase = s.dphase := rfl
@[simp] theorem outPush_opbuf (t : OutToken) (s : State) : (outPush t s).opbuf = s.opbuf := rfl
@[simp] theorem outPush_hdrbuf (t : OutToken) (s : State) : (outPush t s).hdrbuf = s.hdrbuf := rfl
@[simp] theorem outPush_state (t : OutToken) (s : State) : (outPush t s).state = s.state := rfl
@[simp] theorem outPush_jobMode (t : OutToken) (s : State) : (outPush t s).jobMode = s.jobMode := rfl
@[simp] theorem outPush_errClass (t : OutToken) (s : State) : (outPush t s).errClass = s.errClass := rfl
@[simp] theorem outPush_errCode (t : OutToken) (s : State) : (outPush t s).errCode = s.errCode := rfl
@[simp] theorem outPush_hdrValid (t : OutToken) (s : State) : (outPush t s).hdrValid = s.hdrValid := rfl
@[simp] theorem outPush_ctrlMode (t : OutToken) (s : State) : (outPush t s).ctrlMode = s.ctrlMode := rfl
@[simp] theorem outPush_ctrlIrqEn (t : OutToken) (s : State) : (outPush t s).ctrlIrqEn = s.ctrlIrqEn := rfl
@[simp] theorem outPush_width (t : OutToken) (s : State) : (outPush t s).width = s.width := rfl
@[simp] theorem outPush_height (t : OutToken) (s : State) : (outPush t s).height = s.height := rfl
@[simp] theorem outPush_channels (t : OutToken) (s : State) : (outPush t s).channels = s.channels := rfl
@[simp] theorem outPush_colorspace (t : OutToken) (s : State) : (outPush t s).colorspace = s.colorspace := rfl
@[simp] theorem outPush_inq (t : OutToken) (s : State) : (outPush t s).inq = s.inq := rfl
@[simp] theorem outPush_out (t : OutToken) (s : State) : (outPush t s).out = s.out ++ [t] := rfl
@[simp] theorem outPush_turns (t : OutToken) (s : State) : (outPush t s).turns = s.turns := rfl
@[simp] theorem outPush_popped (t : OutToken) (s : State) : (outPush t s).popped = s.popped := rfl
@[simp] theorem outPush_reads (t : OutToken) (s : State) : (outPush t s).reads = s.reads := rfl

/-! `outBytes` -/

@[simp] theorem outBytes_prev (bs : List Byte) (s : State) : (outBytes bs s).prev = s.prev := rfl
@[simp] theorem outBytes_cache (bs : List Byte) (s : State) : (outBytes bs s).cache = s.cache := rfl
@[simp] theorem outBytes_run (bs : List Byte) (s : State) : (outBytes bs s).run = s.run := rfl
@[simp] theorem outBytes_encState (bs : List Byte) (s : State) : (outBytes bs s).encState = s.encState := rfl
@[simp] theorem outBytes_npix (bs : List Byte) (s : State) : (outBytes bs s).npix = s.npix := rfl
@[simp] theorem outBytes_pixcnt (bs : List Byte) (s : State) : (outBytes bs s).pixcnt = s.pixcnt := rfl
@[simp] theorem outBytes_bytecnt (bs : List Byte) (s : State) :
    (outBytes bs s).bytecnt = s.bytecnt + BitVec.ofNat 64 bs.length := rfl
@[simp] theorem outBytes_dphase (bs : List Byte) (s : State) : (outBytes bs s).dphase = s.dphase := rfl
@[simp] theorem outBytes_opbuf (bs : List Byte) (s : State) : (outBytes bs s).opbuf = s.opbuf := rfl
@[simp] theorem outBytes_hdrbuf (bs : List Byte) (s : State) : (outBytes bs s).hdrbuf = s.hdrbuf := rfl
@[simp] theorem outBytes_state (bs : List Byte) (s : State) : (outBytes bs s).state = s.state := rfl
@[simp] theorem outBytes_jobMode (bs : List Byte) (s : State) : (outBytes bs s).jobMode = s.jobMode := rfl
@[simp] theorem outBytes_errClass (bs : List Byte) (s : State) : (outBytes bs s).errClass = s.errClass := rfl
@[simp] theorem outBytes_errCode (bs : List Byte) (s : State) : (outBytes bs s).errCode = s.errCode := rfl
@[simp] theorem outBytes_hdrValid (bs : List Byte) (s : State) : (outBytes bs s).hdrValid = s.hdrValid := rfl
@[simp] theorem outBytes_ctrlMode (bs : List Byte) (s : State) : (outBytes bs s).ctrlMode = s.ctrlMode := rfl
@[simp] theorem outBytes_ctrlIrqEn (bs : List Byte) (s : State) : (outBytes bs s).ctrlIrqEn = s.ctrlIrqEn := rfl
@[simp] theorem outBytes_width (bs : List Byte) (s : State) : (outBytes bs s).width = s.width := rfl
@[simp] theorem outBytes_height (bs : List Byte) (s : State) : (outBytes bs s).height = s.height := rfl
@[simp] theorem outBytes_channels (bs : List Byte) (s : State) : (outBytes bs s).channels = s.channels := rfl
@[simp] theorem outBytes_colorspace (bs : List Byte) (s : State) : (outBytes bs s).colorspace = s.colorspace := rfl
@[simp] theorem outBytes_inq (bs : List Byte) (s : State) : (outBytes bs s).inq = s.inq := rfl
@[simp] theorem outBytes_out (bs : List Byte) (s : State) : (outBytes bs s).out = s.out ++ bs.map .byte := rfl
@[simp] theorem outBytes_turns (bs : List Byte) (s : State) : (outBytes bs s).turns = s.turns := rfl
@[simp] theorem outBytes_popped (bs : List Byte) (s : State) : (outBytes bs s).popped = s.popped := rfl
@[simp] theorem outBytes_reads (bs : List Byte) (s : State) : (outBytes bs s).reads = s.reads := rfl

/-! `emit` -/

@[simp] theorem emit_prev (q : Pixel) (s : State) : (emit q s).prev = s.prev := rfl
@[simp] theorem emit_cache (q : Pixel) (s : State) : (emit q s).cache = s.cache := rfl
@[simp] theorem emit_run (q : Pixel) (s : State) : (emit q s).run = s.run := rfl
@[simp] theorem emit_encState (q : Pixel) (s : State) : (emit q s).encState = s.encState := rfl
@[simp] theorem emit_npix (q : Pixel) (s : State) : (emit q s).npix = s.npix := rfl
@[simp] theorem emit_pixcnt (q : Pixel) (s : State) : (emit q s).pixcnt = s.pixcnt + 1 := rfl
@[simp] theorem emit_bytecnt (q : Pixel) (s : State) : (emit q s).bytecnt = s.bytecnt := rfl
@[simp] theorem emit_dphase (q : Pixel) (s : State) : (emit q s).dphase = s.dphase := rfl
@[simp] theorem emit_opbuf (q : Pixel) (s : State) : (emit q s).opbuf = s.opbuf := rfl
@[simp] theorem emit_hdrbuf (q : Pixel) (s : State) : (emit q s).hdrbuf = s.hdrbuf := rfl
@[simp] theorem emit_state (q : Pixel) (s : State) : (emit q s).state = s.state := rfl
@[simp] theorem emit_jobMode (q : Pixel) (s : State) : (emit q s).jobMode = s.jobMode := rfl
@[simp] theorem emit_errClass (q : Pixel) (s : State) : (emit q s).errClass = s.errClass := rfl
@[simp] theorem emit_errCode (q : Pixel) (s : State) : (emit q s).errCode = s.errCode := rfl
@[simp] theorem emit_hdrValid (q : Pixel) (s : State) : (emit q s).hdrValid = s.hdrValid := rfl
@[simp] theorem emit_ctrlMode (q : Pixel) (s : State) : (emit q s).ctrlMode = s.ctrlMode := rfl
@[simp] theorem emit_ctrlIrqEn (q : Pixel) (s : State) : (emit q s).ctrlIrqEn = s.ctrlIrqEn := rfl
@[simp] theorem emit_width (q : Pixel) (s : State) : (emit q s).width = s.width := rfl
@[simp] theorem emit_height (q : Pixel) (s : State) : (emit q s).height = s.height := rfl
@[simp] theorem emit_channels (q : Pixel) (s : State) : (emit q s).channels = s.channels := rfl
@[simp] theorem emit_colorspace (q : Pixel) (s : State) : (emit q s).colorspace = s.colorspace := rfl
@[simp] theorem emit_inq (q : Pixel) (s : State) : (emit q s).inq = s.inq := rfl
@[simp] theorem emit_out (q : Pixel) (s : State) : (emit q s).out = s.out ++ [.pixel q] := rfl
@[simp] theorem emit_turns (q : Pixel) (s : State) : (emit q s).turns = s.turns := rfl
@[simp] theorem emit_popped (q : Pixel) (s : State) : (emit q s).popped = s.popped := rfl
@[simp] theorem emit_reads (q : Pixel) (s : State) : (emit q s).reads = s.reads := rfl

/-! `produce` -/

@[simp] theorem produce_prev (q : Pixel) (s : State) : (produce q s).prev = q := rfl
@[simp] theorem produce_cache (q : Pixel) (s : State) : (produce q s).cache = s.cache := rfl
@[simp] theorem produce_run (q : Pixel) (s : State) : (produce q s).run = s.run := rfl
@[simp] theorem produce_encState (q : Pixel) (s : State) : (produce q s).encState = s.encState := rfl
@[simp] theorem produce_npix (q : Pixel) (s : State) : (produce q s).npix = s.npix := rfl
@[simp] theorem produce_pixcnt (q : Pixel) (s : State) : (produce q s).pixcnt = s.pixcnt + 1 := rfl
@[simp] theorem produce_bytecnt (q : Pixel) (s : State) : (produce q s).bytecnt = s.bytecnt := rfl
@[simp] theorem produce_dphase (q : Pixel) (s : State) : (produce q s).dphase = s.dphase := rfl
@[simp] theorem produce_opbuf (q : Pixel) (s : State) : (produce q s).opbuf = s.opbuf := rfl
@[simp] theorem produce_hdrbuf (q : Pixel) (s : State) : (produce q s).hdrbuf = s.hdrbuf := rfl
@[simp] theorem produce_state (q : Pixel) (s : State) : (produce q s).state = s.state := rfl
@[simp] theorem produce_jobMode (q : Pixel) (s : State) : (produce q s).jobMode = s.jobMode := rfl
@[simp] theorem produce_errClass (q : Pixel) (s : State) : (produce q s).errClass = s.errClass := rfl
@[simp] theorem produce_errCode (q : Pixel) (s : State) : (produce q s).errCode = s.errCode := rfl
@[simp] theorem produce_hdrValid (q : Pixel) (s : State) : (produce q s).hdrValid = s.hdrValid := rfl
@[simp] theorem produce_ctrlMode (q : Pixel) (s : State) : (produce q s).ctrlMode = s.ctrlMode := rfl
@[simp] theorem produce_ctrlIrqEn (q : Pixel) (s : State) : (produce q s).ctrlIrqEn = s.ctrlIrqEn := rfl
@[simp] theorem produce_width (q : Pixel) (s : State) : (produce q s).width = s.width := rfl
@[simp] theorem produce_height (q : Pixel) (s : State) : (produce q s).height = s.height := rfl
@[simp] theorem produce_channels (q : Pixel) (s : State) : (produce q s).channels = s.channels := rfl
@[simp] theorem produce_colorspace (q : Pixel) (s : State) : (produce q s).colorspace = s.colorspace := rfl
@[simp] theorem produce_inq (q : Pixel) (s : State) : (produce q s).inq = s.inq := rfl
@[simp] theorem produce_out (q : Pixel) (s : State) : (produce q s).out = s.out ++ [.pixel q] := rfl
@[simp] theorem produce_turns (q : Pixel) (s : State) : (produce q s).turns = s.turns := rfl
@[simp] theorem produce_popped (q : Pixel) (s : State) : (produce q s).popped = s.popped := rfl
@[simp] theorem produce_reads (q : Pixel) (s : State) : (produce q s).reads = s.reads := rfl

/-! `produceStored` -/

@[simp] theorem produceStored_prev (q : Pixel) (s : State) : (produceStored q s).prev = q := rfl
@[simp] theorem produceStored_cache (q : Pixel) (s : State) : (produceStored q s).cache = cacheStore s.cache q := rfl
@[simp] theorem produceStored_run (q : Pixel) (s : State) : (produceStored q s).run = s.run := rfl
@[simp] theorem produceStored_encState (q : Pixel) (s : State) : (produceStored q s).encState = s.encState := rfl
@[simp] theorem produceStored_npix (q : Pixel) (s : State) : (produceStored q s).npix = s.npix := rfl
@[simp] theorem produceStored_pixcnt (q : Pixel) (s : State) : (produceStored q s).pixcnt = s.pixcnt + 1 := rfl
@[simp] theorem produceStored_bytecnt (q : Pixel) (s : State) : (produceStored q s).bytecnt = s.bytecnt := rfl
@[simp] theorem produceStored_dphase (q : Pixel) (s : State) : (produceStored q s).dphase = s.dphase := rfl
@[simp] theorem produceStored_opbuf (q : Pixel) (s : State) : (produceStored q s).opbuf = s.opbuf := rfl
@[simp] theorem produceStored_hdrbuf (q : Pixel) (s : State) : (produceStored q s).hdrbuf = s.hdrbuf := rfl
@[simp] theorem produceStored_state (q : Pixel) (s : State) : (produceStored q s).state = s.state := rfl
@[simp] theorem produceStored_jobMode (q : Pixel) (s : State) : (produceStored q s).jobMode = s.jobMode := rfl
@[simp] theorem produceStored_errClass (q : Pixel) (s : State) : (produceStored q s).errClass = s.errClass := rfl
@[simp] theorem produceStored_errCode (q : Pixel) (s : State) : (produceStored q s).errCode = s.errCode := rfl
@[simp] theorem produceStored_hdrValid (q : Pixel) (s : State) : (produceStored q s).hdrValid = s.hdrValid := rfl
@[simp] theorem produceStored_ctrlMode (q : Pixel) (s : State) : (produceStored q s).ctrlMode = s.ctrlMode := rfl
@[simp] theorem produceStored_ctrlIrqEn (q : Pixel) (s : State) : (produceStored q s).ctrlIrqEn = s.ctrlIrqEn := rfl
@[simp] theorem produceStored_width (q : Pixel) (s : State) : (produceStored q s).width = s.width := rfl
@[simp] theorem produceStored_height (q : Pixel) (s : State) : (produceStored q s).height = s.height := rfl
@[simp] theorem produceStored_channels (q : Pixel) (s : State) : (produceStored q s).channels = s.channels := rfl
@[simp] theorem produceStored_colorspace (q : Pixel) (s : State) :
    (produceStored q s).colorspace = s.colorspace := rfl
@[simp] theorem produceStored_inq (q : Pixel) (s : State) : (produceStored q s).inq = s.inq := rfl
@[simp] theorem produceStored_out (q : Pixel) (s : State) : (produceStored q s).out = s.out ++ [.pixel q] := rfl
@[simp] theorem produceStored_turns (q : Pixel) (s : State) : (produceStored q s).turns = s.turns := rfl
@[simp] theorem produceStored_popped (q : Pixel) (s : State) : (produceStored q s).popped = s.popped := rfl
@[simp] theorem produceStored_reads (q : Pixel) (s : State) : (produceStored q s).reads = s.reads := rfl

/-! `raiseError` -/

@[simp] theorem raiseError_prev (e : ErrCode) (s : State) : (raiseError e s).prev = s.prev := rfl
@[simp] theorem raiseError_cache (e : ErrCode) (s : State) : (raiseError e s).cache = s.cache := rfl
@[simp] theorem raiseError_run (e : ErrCode) (s : State) : (raiseError e s).run = s.run := rfl
@[simp] theorem raiseError_encState (e : ErrCode) (s : State) : (raiseError e s).encState = s.encState := rfl
@[simp] theorem raiseError_npix (e : ErrCode) (s : State) : (raiseError e s).npix = s.npix := rfl
@[simp] theorem raiseError_pixcnt (e : ErrCode) (s : State) : (raiseError e s).pixcnt = s.pixcnt := rfl
@[simp] theorem raiseError_bytecnt (e : ErrCode) (s : State) : (raiseError e s).bytecnt = s.bytecnt := rfl
@[simp] theorem raiseError_dphase (e : ErrCode) (s : State) : (raiseError e s).dphase = s.dphase := rfl
@[simp] theorem raiseError_opbuf (e : ErrCode) (s : State) : (raiseError e s).opbuf = s.opbuf := rfl
@[simp] theorem raiseError_hdrbuf (e : ErrCode) (s : State) : (raiseError e s).hdrbuf = s.hdrbuf := rfl
@[simp] theorem raiseError_state (e : ErrCode) (s : State) : (raiseError e s).state = .error := rfl
@[simp] theorem raiseError_jobMode (e : ErrCode) (s : State) : (raiseError e s).jobMode = s.jobMode := rfl
@[simp] theorem raiseError_errClass (e : ErrCode) (s : State) : (raiseError e s).errClass = classOf e := rfl
@[simp] theorem raiseError_errCode (e : ErrCode) (s : State) : (raiseError e s).errCode = e := rfl
@[simp] theorem raiseError_hdrValid (e : ErrCode) (s : State) : (raiseError e s).hdrValid = s.hdrValid := rfl
@[simp] theorem raiseError_ctrlMode (e : ErrCode) (s : State) : (raiseError e s).ctrlMode = s.ctrlMode := rfl
@[simp] theorem raiseError_ctrlIrqEn (e : ErrCode) (s : State) : (raiseError e s).ctrlIrqEn = s.ctrlIrqEn := rfl
@[simp] theorem raiseError_width (e : ErrCode) (s : State) : (raiseError e s).width = s.width := rfl
@[simp] theorem raiseError_height (e : ErrCode) (s : State) : (raiseError e s).height = s.height := rfl
@[simp] theorem raiseError_channels (e : ErrCode) (s : State) : (raiseError e s).channels = s.channels := rfl
@[simp] theorem raiseError_colorspace (e : ErrCode) (s : State) : (raiseError e s).colorspace = s.colorspace := rfl
@[simp] theorem raiseError_inq (e : ErrCode) (s : State) : (raiseError e s).inq = s.inq := rfl
@[simp] theorem raiseError_out (e : ErrCode) (s : State) :
    (raiseError e s).out = s.out ++ [.abortMark (classOf e) e] := rfl
@[simp] theorem raiseError_turns (e : ErrCode) (s : State) : (raiseError e s).turns = s.turns := rfl
@[simp] theorem raiseError_popped (e : ErrCode) (s : State) : (raiseError e s).popped = s.popped := rfl
@[simp] theorem raiseError_reads (e : ErrCode) (s : State) : (raiseError e s).reads = s.reads := rfl

/-! `completeJob` -/

@[simp] theorem completeJob_prev (s : State) : (completeJob s).prev = s.prev := rfl
@[simp] theorem completeJob_cache (s : State) : (completeJob s).cache = s.cache := rfl
@[simp] theorem completeJob_run (s : State) : (completeJob s).run = s.run := rfl
@[simp] theorem completeJob_encState (s : State) : (completeJob s).encState = s.encState := rfl
@[simp] theorem completeJob_npix (s : State) : (completeJob s).npix = s.npix := rfl
@[simp] theorem completeJob_pixcnt (s : State) : (completeJob s).pixcnt = s.pixcnt := rfl
@[simp] theorem completeJob_bytecnt (s : State) : (completeJob s).bytecnt = s.bytecnt := rfl
@[simp] theorem completeJob_dphase (s : State) : (completeJob s).dphase = s.dphase := rfl
@[simp] theorem completeJob_opbuf (s : State) : (completeJob s).opbuf = s.opbuf := rfl
@[simp] theorem completeJob_hdrbuf (s : State) : (completeJob s).hdrbuf = s.hdrbuf := rfl
@[simp] theorem completeJob_state (s : State) : (completeJob s).state = .done := rfl
@[simp] theorem completeJob_jobMode (s : State) : (completeJob s).jobMode = s.jobMode := rfl
@[simp] theorem completeJob_errClass (s : State) : (completeJob s).errClass = s.errClass := rfl
@[simp] theorem completeJob_errCode (s : State) : (completeJob s).errCode = s.errCode := rfl
@[simp] theorem completeJob_hdrValid (s : State) : (completeJob s).hdrValid = s.hdrValid := rfl
@[simp] theorem completeJob_ctrlMode (s : State) : (completeJob s).ctrlMode = s.ctrlMode := rfl
@[simp] theorem completeJob_ctrlIrqEn (s : State) : (completeJob s).ctrlIrqEn = s.ctrlIrqEn := rfl
@[simp] theorem completeJob_width (s : State) : (completeJob s).width = s.width := rfl
@[simp] theorem completeJob_height (s : State) : (completeJob s).height = s.height := rfl
@[simp] theorem completeJob_channels (s : State) : (completeJob s).channels = s.channels := rfl
@[simp] theorem completeJob_colorspace (s : State) : (completeJob s).colorspace = s.colorspace := rfl
@[simp] theorem completeJob_inq (s : State) : (completeJob s).inq = s.inq := rfl
@[simp] theorem completeJob_out (s : State) : (completeJob s).out = s.out ++ [.doneMark] := rfl
@[simp] theorem completeJob_turns (s : State) : (completeJob s).turns = s.turns := rfl
@[simp] theorem completeJob_popped (s : State) : (completeJob s).popped = s.popped := rfl
@[simp] theorem completeJob_reads (s : State) : (completeJob s).reads = s.reads := rfl

/-! `encoderFinish` -/

@[simp] theorem encoderFinish_prev (s : State) : (encoderFinish s).prev = s.prev := rfl
@[simp] theorem encoderFinish_cache (s : State) : (encoderFinish s).cache = s.cache := rfl
@[simp] theorem encoderFinish_run (s : State) : (encoderFinish s).run = s.run := rfl
@[simp] theorem encoderFinish_encState (s : State) : (encoderFinish s).encState = s.encState := rfl
@[simp] theorem encoderFinish_npix (s : State) : (encoderFinish s).npix = s.npix := rfl
@[simp] theorem encoderFinish_pixcnt (s : State) : (encoderFinish s).pixcnt = s.pixcnt := rfl
@[simp] theorem encoderFinish_bytecnt (s : State) : (encoderFinish s).bytecnt = s.bytecnt + 8 := rfl
@[simp] theorem encoderFinish_dphase (s : State) : (encoderFinish s).dphase = s.dphase := rfl
@[simp] theorem encoderFinish_opbuf (s : State) : (encoderFinish s).opbuf = s.opbuf := rfl
@[simp] theorem encoderFinish_hdrbuf (s : State) : (encoderFinish s).hdrbuf = s.hdrbuf := rfl
@[simp] theorem encoderFinish_state (s : State) : (encoderFinish s).state = .done := rfl
@[simp] theorem encoderFinish_jobMode (s : State) : (encoderFinish s).jobMode = s.jobMode := rfl
@[simp] theorem encoderFinish_errClass (s : State) : (encoderFinish s).errClass = s.errClass := rfl
@[simp] theorem encoderFinish_errCode (s : State) : (encoderFinish s).errCode = s.errCode := rfl
@[simp] theorem encoderFinish_hdrValid (s : State) : (encoderFinish s).hdrValid = s.hdrValid := rfl
@[simp] theorem encoderFinish_ctrlMode (s : State) : (encoderFinish s).ctrlMode = s.ctrlMode := rfl
@[simp] theorem encoderFinish_ctrlIrqEn (s : State) : (encoderFinish s).ctrlIrqEn = s.ctrlIrqEn := rfl
@[simp] theorem encoderFinish_width (s : State) : (encoderFinish s).width = s.width := rfl
@[simp] theorem encoderFinish_height (s : State) : (encoderFinish s).height = s.height := rfl
@[simp] theorem encoderFinish_channels (s : State) : (encoderFinish s).channels = s.channels := rfl
@[simp] theorem encoderFinish_colorspace (s : State) : (encoderFinish s).colorspace = s.colorspace := rfl
@[simp] theorem encoderFinish_inq (s : State) : (encoderFinish s).inq = s.inq := rfl
@[simp] theorem encoderFinish_out (s : State) :
    (encoderFinish s).out = s.out ++ endMarker.map .byte ++ [.doneMark] := rfl
@[simp] theorem encoderFinish_turns (s : State) : (encoderFinish s).turns = s.turns := rfl
@[simp] theorem encoderFinish_popped (s : State) : (encoderFinish s).popped = s.popped := rfl
@[simp] theorem encoderFinish_reads (s : State) : (encoderFinish s).reads = s.reads := rfl

/-! `encoderCommit` -/

@[simp] theorem encoderCommit_prev (p : Pixel) (k : Taken) (bs : List Byte) (s : State) :
    (encoderCommit p k bs s).prev = p := rfl
@[simp] theorem encoderCommit_cache (p : Pixel) (k : Taken) (bs : List Byte) (s : State) :
    (encoderCommit p k bs s).cache = k.cache := rfl
@[simp] theorem encoderCommit_run (p : Pixel) (k : Taken) (bs : List Byte) (s : State) :
    (encoderCommit p k bs s).run = BitVec.ofNat 6 k.run := rfl
@[simp] theorem encoderCommit_encState (p : Pixel) (k : Taken) (bs : List Byte) (s : State) :
    (encoderCommit p k bs s).encState = if 0 < k.run then .inRun else .scanning := rfl
@[simp] theorem encoderCommit_npix (p : Pixel) (k : Taken) (bs : List Byte) (s : State) :
    (encoderCommit p k bs s).npix = s.npix := rfl
@[simp] theorem encoderCommit_pixcnt (p : Pixel) (k : Taken) (bs : List Byte) (s : State) :
    (encoderCommit p k bs s).pixcnt = s.pixcnt + 1 := rfl
@[simp] theorem encoderCommit_bytecnt (p : Pixel) (k : Taken) (bs : List Byte) (s : State) :
    (encoderCommit p k bs s).bytecnt = s.bytecnt + BitVec.ofNat 64 bs.length := rfl
@[simp] theorem encoderCommit_dphase (p : Pixel) (k : Taken) (bs : List Byte) (s : State) :
    (encoderCommit p k bs s).dphase = s.dphase := rfl
@[simp] theorem encoderCommit_opbuf (p : Pixel) (k : Taken) (bs : List Byte) (s : State) :
    (encoderCommit p k bs s).opbuf = s.opbuf := rfl
@[simp] theorem encoderCommit_hdrbuf (p : Pixel) (k : Taken) (bs : List Byte) (s : State) :
    (encoderCommit p k bs s).hdrbuf = s.hdrbuf := rfl
@[simp] theorem encoderCommit_state (p : Pixel) (k : Taken) (bs : List Byte) (s : State) :
    (encoderCommit p k bs s).state = s.state := rfl
@[simp] theorem encoderCommit_jobMode (p : Pixel) (k : Taken) (bs : List Byte) (s : State) :
    (encoderCommit p k bs s).jobMode = s.jobMode := rfl
@[simp] theorem encoderCommit_errClass (p : Pixel) (k : Taken) (bs : List Byte) (s : State) :
    (encoderCommit p k bs s).errClass = s.errClass := rfl
@[simp] theorem encoderCommit_errCode (p : Pixel) (k : Taken) (bs : List Byte) (s : State) :
    (encoderCommit p k bs s).errCode = s.errCode := rfl
@[simp] theorem encoderCommit_hdrValid (p : Pixel) (k : Taken) (bs : List Byte) (s : State) :
    (encoderCommit p k bs s).hdrValid = s.hdrValid := rfl
@[simp] theorem encoderCommit_ctrlMode (p : Pixel) (k : Taken) (bs : List Byte) (s : State) :
    (encoderCommit p k bs s).ctrlMode = s.ctrlMode := rfl
@[simp] theorem encoderCommit_ctrlIrqEn (p : Pixel) (k : Taken) (bs : List Byte) (s : State) :
    (encoderCommit p k bs s).ctrlIrqEn = s.ctrlIrqEn := rfl
@[simp] theorem encoderCommit_width (p : Pixel) (k : Taken) (bs : List Byte) (s : State) :
    (encoderCommit p k bs s).width = s.width := rfl
@[simp] theorem encoderCommit_height (p : Pixel) (k : Taken) (bs : List Byte) (s : State) :
    (encoderCommit p k bs s).height = s.height := rfl
@[simp] theorem encoderCommit_channels (p : Pixel) (k : Taken) (bs : List Byte) (s : State) :
    (encoderCommit p k bs s).channels = s.channels := rfl
@[simp] theorem encoderCommit_colorspace (p : Pixel) (k : Taken) (bs : List Byte) (s : State) :
    (encoderCommit p k bs s).colorspace = s.colorspace := rfl
@[simp] theorem encoderCommit_inq (p : Pixel) (k : Taken) (bs : List Byte) (s : State) :
    (encoderCommit p k bs s).inq = s.inq := rfl
@[simp] theorem encoderCommit_out (p : Pixel) (k : Taken) (bs : List Byte) (s : State) :
    (encoderCommit p k bs s).out = s.out ++ bs.map .byte := rfl
@[simp] theorem encoderCommit_turns (p : Pixel) (k : Taken) (bs : List Byte) (s : State) :
    (encoderCommit p k bs s).turns = s.turns := rfl
@[simp] theorem encoderCommit_popped (p : Pixel) (k : Taken) (bs : List Byte) (s : State) :
    (encoderCommit p k bs s).popped = s.popped := rfl
@[simp] theorem encoderCommit_reads (p : Pixel) (k : Taken) (bs : List Byte) (s : State) :
    (encoderCommit p k bs s).reads = s.reads := rfl

/-! `acceptHeader` -/

@[simp] theorem acceptHeader_prev (hd : Header) (s : State) : (acceptHeader hd s).prev = s.prev := rfl
@[simp] theorem acceptHeader_cache (hd : Header) (s : State) : (acceptHeader hd s).cache = s.cache := rfl
@[simp] theorem acceptHeader_run (hd : Header) (s : State) : (acceptHeader hd s).run = s.run := rfl
@[simp] theorem acceptHeader_encState (hd : Header) (s : State) : (acceptHeader hd s).encState = s.encState := rfl
@[simp] theorem acceptHeader_npix (hd : Header) (s : State) : (acceptHeader hd s).npix = pixelCount hd := rfl
@[simp] theorem acceptHeader_pixcnt (hd : Header) (s : State) : (acceptHeader hd s).pixcnt = s.pixcnt := rfl
@[simp] theorem acceptHeader_bytecnt (hd : Header) (s : State) : (acceptHeader hd s).bytecnt = s.bytecnt := rfl
@[simp] theorem acceptHeader_dphase (hd : Header) (s : State) : (acceptHeader hd s).dphase = .chunk 0 := rfl
@[simp] theorem acceptHeader_opbuf (hd : Header) (s : State) : (acceptHeader hd s).opbuf = s.opbuf := rfl
@[simp] theorem acceptHeader_hdrbuf (hd : Header) (s : State) : (acceptHeader hd s).hdrbuf = s.hdrbuf := rfl
@[simp] theorem acceptHeader_state (hd : Header) (s : State) : (acceptHeader hd s).state = s.state := rfl
@[simp] theorem acceptHeader_jobMode (hd : Header) (s : State) : (acceptHeader hd s).jobMode = s.jobMode := rfl
@[simp] theorem acceptHeader_errClass (hd : Header) (s : State) : (acceptHeader hd s).errClass = s.errClass := rfl
@[simp] theorem acceptHeader_errCode (hd : Header) (s : State) : (acceptHeader hd s).errCode = s.errCode := rfl
@[simp] theorem acceptHeader_hdrValid (hd : Header) (s : State) : (acceptHeader hd s).hdrValid = true := rfl
@[simp] theorem acceptHeader_ctrlMode (hd : Header) (s : State) : (acceptHeader hd s).ctrlMode = s.ctrlMode := rfl
@[simp] theorem acceptHeader_ctrlIrqEn (hd : Header) (s : State) : (acceptHeader hd s).ctrlIrqEn = s.ctrlIrqEn := rfl
@[simp] theorem acceptHeader_width (hd : Header) (s : State) : (acceptHeader hd s).width = hd.width := rfl
@[simp] theorem acceptHeader_height (hd : Header) (s : State) : (acceptHeader hd s).height = hd.height := rfl
@[simp] theorem acceptHeader_channels (hd : Header) (s : State) : (acceptHeader hd s).channels = hd.channels := rfl
@[simp] theorem acceptHeader_colorspace (hd : Header) (s : State) :
    (acceptHeader hd s).colorspace = hd.colorspace := rfl
@[simp] theorem acceptHeader_inq (hd : Header) (s : State) : (acceptHeader hd s).inq = s.inq := rfl
@[simp] theorem acceptHeader_out (hd : Header) (s : State) : (acceptHeader hd s).out = s.out := rfl
@[simp] theorem acceptHeader_turns (hd : Header) (s : State) : (acceptHeader hd s).turns = s.turns := rfl
@[simp] theorem acceptHeader_popped (hd : Header) (s : State) : (acceptHeader hd s).popped = s.popped := rfl
@[simp] theorem acceptHeader_reads (hd : Header) (s : State) : (acceptHeader hd s).reads = s.reads := rfl

/-! `jobInit` -/

@[simp] theorem jobInit_prev (s : State) : (jobInit s).prev = startPixel := rfl
@[simp] theorem jobInit_cache (s : State) : (jobInit s).cache = Vector.replicate 64 zeroPixel := rfl
@[simp] theorem jobInit_run (s : State) : (jobInit s).run = 0 := rfl
@[simp] theorem jobInit_encState (s : State) : (jobInit s).encState = .scanning := rfl
@[simp] theorem jobInit_npix (s : State) : (jobInit s).npix = 0 := rfl
@[simp] theorem jobInit_pixcnt (s : State) : (jobInit s).pixcnt = 0 := rfl
@[simp] theorem jobInit_bytecnt (s : State) : (jobInit s).bytecnt = 0 := rfl
@[simp] theorem jobInit_dphase (s : State) : (jobInit s).dphase = .hdr 0 := rfl
@[simp] theorem jobInit_opbuf (s : State) : (jobInit s).opbuf = Vector.replicate 5 0 := rfl
@[simp] theorem jobInit_hdrbuf (s : State) : (jobInit s).hdrbuf = Vector.replicate 14 0 := rfl
@[simp] theorem jobInit_state (s : State) : (jobInit s).state = .busy := rfl
@[simp] theorem jobInit_jobMode (s : State) : (jobInit s).jobMode = s.ctrlMode := rfl
@[simp] theorem jobInit_errClass (s : State) : (jobInit s).errClass = .none := rfl
@[simp] theorem jobInit_errCode (s : State) : (jobInit s).errCode = .none := rfl
@[simp] theorem jobInit_hdrValid (s : State) : (jobInit s).hdrValid = false := rfl
@[simp] theorem jobInit_ctrlMode (s : State) : (jobInit s).ctrlMode = s.ctrlMode := rfl
@[simp] theorem jobInit_ctrlIrqEn (s : State) : (jobInit s).ctrlIrqEn = s.ctrlIrqEn := rfl
@[simp] theorem jobInit_width (s : State) : (jobInit s).width = s.width := rfl
@[simp] theorem jobInit_height (s : State) : (jobInit s).height = s.height := rfl
@[simp] theorem jobInit_channels (s : State) : (jobInit s).channels = s.channels := rfl
@[simp] theorem jobInit_colorspace (s : State) : (jobInit s).colorspace = s.colorspace := rfl
@[simp] theorem jobInit_inq (s : State) : (jobInit s).inq = [] := rfl
@[simp] theorem jobInit_out (s : State) : (jobInit s).out = [] := rfl
@[simp] theorem jobInit_turns (s : State) : (jobInit s).turns = s.turns := rfl
@[simp] theorem jobInit_popped (s : State) : (jobInit s).popped = [] := rfl
@[simp] theorem jobInit_reads (s : State) : (jobInit s).reads = s.reads := rfl

end Sys2Proof.Machine
end

