-- ==== Sys2Proof/Laws/Pixels.lean ====
section
/-! SUPPORT. The pixel arithmetic, the cache, the header codec and the formatters: one lemma per function. -/

namespace Sys2Proof.Machine

/-- `wrap8` is the remainder mod 256. -/
theorem wrap8_toNat (x : Int) : ((wrap8 x).toNat : Int) = x % 256 := by
  unfold wrap8
  rw [BitVec.toNat_ofInt]
  omega

/-- A channel plus a delta is the sum mod 256. -/
theorem addDelta_toNat (old : Byte) (d : Int) : ((addDelta old d).toNat : Int) = (old.toNat + d) % 256 :=
  wrap8_toNat _

/-- After a store, the pixel's own slot holds it and every other slot is as before. -/
theorem cacheLookup_cacheStore (slots : Cache) (p : Pixel) (j : Fin 64) :
    cacheLookup (cacheStore slots p) j = if j = hash p then p else cacheLookup slots j := by
  unfold cacheLookup cacheStore
  rw [Vector.getElem_set]
  simp only [Fin.ext_iff, eq_comm]

/-- Every slot of an empty cache is the zero pixel. -/
theorem cacheLookup_empty (j : Fin 64) : cacheLookup (Vector.replicate 64 zeroPixel) j = zeroPixel := by
  simp [cacheLookup]

/-- The four bytes of a field, as quotients. -/
theorem bigEndianBytes_eq (v : Word32) :
    bigEndianBytes v = [BitVec.ofNat 8 (v.toNat / 2 ^ 24), BitVec.ofNat 8 (v.toNat / 2 ^ 16),
      BitVec.ofNat 8 (v.toNat / 2 ^ 8), BitVec.ofNat 8 v.toNat] := by
  simp only [bigEndianBytes, List.cons.injEq, and_true]
  refine ⟨?_, ?_, ?_, ?_⟩ <;> apply BitVec.eq_of_toNat_eq <;> simp [Nat.shiftRight_eq_div_pow]

/-- A field is read back from its own bytes. -/
theorem bigEndianWord_of_fields (v : Word32) :
    bigEndianWord (v.extractLsb 31 24) (v.extractLsb 23 16) (v.extractLsb 15 8) (v.extractLsb 7 0) = v := by
  apply BitVec.eq_of_toNat_eq
  simp [bigEndianWord, Nat.shiftRight_eq_div_pow]
  omega

/-- Four bytes come back from the field they make. -/
theorem bigEndianBytes_of_word (b0 b1 b2 b3 : Byte) : bigEndianBytes (bigEndianWord b0 b1 b2 b3) = [b0, b1, b2, b3] := by
  simp only [bigEndianBytes_eq, List.cons.injEq, and_true, bigEndianWord]
  refine ⟨?_, ?_, ?_, ?_⟩ <;> apply BitVec.eq_of_toNat_eq <;> simp <;> omega

/-- A header passes the check as itself, with both dimensions in range. -/
theorem headerCheck_ok {hd hd' : Header} (h : headerCheck hd = .ok hd') :
    hd' = hd ∧ 1 ≤ hd.width.toNat ∧ hd.width.toNat < 2 ^ 31 ∧ 1 ≤ hd.height.toNat ∧ hd.height.toNat < 2 ^ 31 := by
  unfold headerCheck at h
  split at h
  · cases h
  split at h
  · cases h
  split at h
  · cases h
  split at h
  · cases h
  · rename_i h1 h2
    injection h with h
    subst h
    simp [legalDimension] at h1 h2
    exact ⟨rfl, by omega, by omega, by omega, by omega⟩

/-- The errors of the check are FormatErrors 2 to 5. -/
theorem headerCheck_raised {hd : Header} {e : ErrCode} (h : headerCheck hd = .raised e) :
    classOf e = .format ∧ (e = .channels ∨ e = .colorspace ∨ e = .width ∨ e = .height) := by
  unfold headerCheck at h
  split at h
  · injection h with h; subst h; simp [classOf]
  split at h
  · injection h with h; subst h; simp [classOf]
  split at h
  · injection h with h; subst h; simp [classOf]
  split at h
  · injection h with h; subst h; simp [classOf]
  · cases h

theorem headerEncode_raised {hd : Header} {e : ErrCode} (h : headerEncode hd = .raised e) :
    headerCheck hd = .raised e := by
  unfold headerEncode at h
  split at h
  · rename_i e' h'
    injection h with h
    subst h
    exact h'
  · cases h

theorem headerEncode_ok {hd : Header} {bs : List Byte} (h : headerEncode hd = .ok bs) :
    headerCheck hd = .ok hd ∧ bs = headerBytes hd := by
  unfold headerEncode at h
  split at h
  · cases h
  · rename_i hd' h'
    injection h with h
    have := (headerCheck_ok h').1
    subst this
    exact ⟨h', h.symm⟩

/-- HeaderDecode accepts only headers that pass the check. -/
theorem headerDecode_ok {b : Vector Byte 14} {hd : Header} (h : headerDecode b = .ok hd) :
    headerCheck hd = .ok hd := by
  unfold headerDecode at h
  split at h
  · cases h
  · have := (headerCheck_ok h).1
    subst this
    exact h

/-- HeaderDecode's errors are FormatErrors. -/
theorem headerDecode_raised {b : Vector Byte 14} {e : ErrCode} (h : headerDecode b = .raised e) :
    classOf e = .format ∧ e ≠ .none := by
  unfold headerDecode at h
  split at h
  · injection h with h; subst h; simp [classOf]
  · obtain ⟨h1, h2⟩ := headerCheck_raised h
    refine ⟨h1, ?_⟩
    rintro rfl
    cases h1

/-- A store keeps the invariant of the cache: each slot holds a pixel that hashes to it, or the zero pixel. -/
theorem cacheStore_slots {slots : Cache} (p : Pixel)
    (h : ∀ i : Fin 64, hash (cacheLookup slots i) = i ∨ cacheLookup slots i = zeroPixel) (i : Fin 64) :
    hash (cacheLookup (cacheStore slots p) i) = i ∨ cacheLookup (cacheStore slots p) i = zeroPixel := by
  rw [cacheLookup_cacheStore]
  split
  · exact .inl (by symm; assumption)
  · exact h i

/-- A counter below another counter does not wrap when it is incremented. -/
theorem count_succ (p n : Count) (h : p.toNat < n.toNat) : (p + 1).toNat = p.toNat + 1 := by
  have := n.isLt
  rw [BitVec.toNat_add]
  simp
  omega

/-- A legal header's pixel count is the exact product, positive and below 2^62 (spec/10_state.md R26). -/
theorem pixelCount_of_legal {hd : Header} (h : headerCheck hd = .ok hd) :
    (pixelCount hd).toNat = hd.width.toNat * hd.height.toNat ∧ 1 ≤ hd.width.toNat * hd.height.toNat ∧
    hd.width.toNat * hd.height.toNat < 2 ^ 62 := by
  obtain ⟨_, h1, h2, h3, h4⟩ := headerCheck_ok h
  have h5 : hd.width.toNat * hd.height.toNat < 2 ^ 31 * 2 ^ 31 := Nat.mul_lt_mul'' h2 h4
  have h6 : hd.width.toNat * hd.height.toNat < 2 ^ 62 := lt_of_lt_of_le h5 (by norm_num)
  refine ⟨?_, Nat.mul_pos h1 h3, h6⟩
  simp only [pixelCount, BitVec.toNat_ofNat]
  exact Nat.mod_eq_of_lt (lt_trans h6 (by norm_num))

/-- A legal run's byte. -/
theorem fmtRun_ok (n : Nat) (h1 : 1 ≤ n) (h2 : n ≤ 62) :
    fmtRun (n : Int) = .ok [BitVec.ofNat 8 (0xC0 + (n - 1))] := by
  have : 1 ≤ (n : Int) ∧ (n : Int) ≤ 62 := by omega
  simp only [fmtRun, this, and_self, if_true]
  congr 2
  apply BitVec.eq_of_toNat_eq
  simp [wrap8, BitVec.toNat_ofInt]
  omega

/-- The driver's band tests are the assembler's operand limits. -/
theorem fitsDiff_eq_wellFormed (dr dg db : Int) : fitsDiff dr dg db = (Instr.diff dr dg db).wellFormed := by
  simp [fitsDiff, Instr.wellFormed, within, Bool.decide_and, Bool.and_assoc]

theorem fitsLuma_eq_wellFormed (dr dg db : Int) : fitsLuma dr dg db = (Instr.luma dr dg db).wellFormed := by
  simp [fitsLuma, Instr.wellFormed, within, Bool.decide_and, Bool.and_assoc]

/-- EncodePixel never raises: it gives at most five bytes, and the cache with at most its own slot written. -/
theorem encodePixel_cases (prev : Pixel) (slots : Cache) (p : Pixel) :
    ∃ bs, bs.length ≤ 5 ∧
      (encodePixel prev slots p = (.ok bs, slots) ∨ encodePixel prev slots p = (.ok bs, cacheStore slots p)) := by
  unfold encodePixel
  split
  · have h := (hash p).isLt
    exact ⟨[wrap8 ((hash p).val : Int)], by simp, .inl (by simp only [fmtIndex]; rw [if_pos (by omega)])⟩
  · have hmiss : ∃ bs, bs.length ≤ 5 ∧ encodeMiss prev p = .ok bs := by
      unfold encodeMiss
      split
      · dsimp only
        split
        · rename_i h
          simp only [fitsDiff, decide_eq_true_eq] at h
          refine ⟨_, ?_, by rw [fmtDiff, if_pos h]⟩
          simp
        · split
          · rename_i h
            simp only [fitsLuma, decide_eq_true_eq] at h
            refine ⟨_, ?_, by rw [fmtLuma, if_pos h]⟩
            simp
          · exact ⟨[0xFE#8, p.r, p.g, p.b], by simp, rfl⟩
      · exact ⟨[0xFF#8, p.r, p.g, p.b, p.a], by simp, rfl⟩
    obtain ⟨bs, hb, he⟩ := hmiss
    exact ⟨bs, hb, .inr (by rw [he])⟩

/-- The run-length front-end never raises on a run below 62: at most six bytes, a run below 62 afterwards and none
after the last pixel, and at most the pixel's own slot written. -/
theorem takePixel_cases (prev : Pixel) (slots : Cache) (run : Nat) (last : Bool) (p : Pixel) (h : run < 62) :
    ∃ bs r slots', takePixel prev slots run last p = ⟨.ok bs, r, slots'⟩ ∧ bs.length ≤ 6 ∧ r < 62 ∧
      (last = true → r = 0) ∧ (slots' = slots ∨ slots' = cacheStore slots p) := by
  unfold takePixel
  split
  · split
    · rw [fmtRun_ok _ (by omega) (by omega)]
      exact ⟨_, _, _, rfl, by simp, by omega, fun _ => rfl, .inl rfl⟩
    · rename_i hc
      push Not at hc
      exact ⟨_, _, _, rfl, by simp, by omega, fun hl => absurd hl hc.2, .inl rfl⟩
  · obtain ⟨bs, hb, he⟩ := encodePixel_cases prev slots p
    have hheld : ∃ xs : List Byte, xs.length ≤ 1 ∧ (if 0 < run then fmtRun (run : Int) else .ok []) = .ok xs := by
      split
      · exact ⟨[BitVec.ofNat 8 (0xC0 + (run - 1))], by simp, fmtRun_ok run (by omega) (by omega)⟩
      · exact ⟨[], by simp, rfl⟩
    obtain ⟨xs, hx, hxe⟩ := hheld
    rcases he with he | he
    · exact ⟨xs ++ bs, 0, slots, by simp only [hxe, he, joinBytes], by simp; omega, by omega, fun _ => rfl, .inl rfl⟩
    · exact ⟨xs ++ bs, 0, _, by simp only [hxe, he, joinBytes], by simp; omega, by omega, fun _ => rfl, .inr rfl⟩

/-- Whatever the run counter holds, the front-end gives at most six bytes or the formatter's error. -/
theorem takePixel_bytes (prev : Pixel) (slots : Cache) (run : Nat) (last : Bool) (p : Pixel) :
    (∃ e, (takePixel prev slots run last p).bytes = .raised e) ∨
    ∃ bs, (takePixel prev slots run last p).bytes = .ok bs ∧ bs.length ≤ 6 := by
  have hrun : ∀ n : Int, (∃ e, fmtRun n = .raised e) ∨ ∃ bs, fmtRun n = .ok bs ∧ bs.length ≤ 1 := by
    intro n
    unfold fmtRun
    split
    · exact .inr ⟨_, rfl, by simp⟩
    · exact .inl ⟨_, rfl⟩
  unfold takePixel
  split
  · split
    · rcases hrun ((run + 1 : Nat) : Int) with ⟨e, h⟩ | ⟨bs, h, hl⟩
      · exact .inl ⟨e, h⟩
      · exact .inr ⟨bs, h, by omega⟩
    · exact .inr ⟨_, rfl, by simp⟩
  · obtain ⟨bs, hl, h⟩ := encodePixel_cases prev slots p
    have hb : (encodePixel prev slots p).1 = .ok bs := by rcases h with h | h <;> rw [h]
    dsimp only
    rw [hb]
    by_cases h0 : 0 < run
    · rw [if_pos h0]
      rcases hrun (run : Int) with ⟨e, h⟩ | ⟨xs, h, hx⟩
      · exact .inl ⟨e, by rw [h]; rfl⟩
      · exact .inr ⟨xs ++ bs, by rw [h]; rfl, by simp; omega⟩
    · rw [if_neg h0]
      exact .inr ⟨[] ++ bs, rfl, by simp; omega⟩

end Sys2Proof.Machine
end

