-- ==== Sys2Proof/Laws/Control.lean ====
section
/-! SUPPORT. What the host's operations can do. -/

namespace Sys2Proof.Machine

theorem move_host (e : HostEvent) (s : State) : move (.host e) s = hostMove e { s with turns := [] } := rfl

theorem move_block (s : State) : move .block s = blockStep { s with turns := [] } := rfl

/-- A CTRL write that starts a job. -/
theorem writeCtrl_start (v : Word32) (s : State) (h0 : v.getLsbD 0 = true) (hs : s.state ≠ .busy) :
    writeCtrl v s = startJob { s with ctrlMode := modeOf (v.getLsbD 1), ctrlIrqEn := v.getLsbD 3 } := by
  simp only [writeCtrl, h0, hs, ne_eq, not_false_eq_true, and_self, if_true]

/-- A CTRL write that starts none. -/
theorem writeCtrl_no_start (v : Word32) (s : State) (h : v.getLsbD 0 = false ∨ s.state = .busy) :
    writeCtrl v s =
      if v.getLsbD 2 = true then ackJob { s with ctrlMode := modeOf (v.getLsbD 1), ctrlIrqEn := v.getLsbD 3 }
      else { s with ctrlMode := modeOf (v.getLsbD 1), ctrlIrqEn := v.getLsbD 3 } := by
  unfold writeCtrl
  dsimp only
  rw [if_neg]
  rcases h with h | h
  · rw [h]; simp
  · rw [h]; simp

theorem encoderStart_raised {s : State} {e : ErrCode} (h : headerEncode (configHeader s) = .raised e) :
    encoderStart s = raiseError e s := by
  simp only [encoderStart, h]

theorem encoderStart_ok {s : State} {hb : List Byte} (h : headerEncode (configHeader s) = .ok hb) :
    encoderStart s = { s with
      npix := pixelCount (configHeader s), out := s.out ++ hb.map .byte, bytecnt := 14, hdrValid := true } := by
  simp only [encoderStart, h]
  rfl

/-- What a host move can do: write registers without a START or ACK, START, ACK, read, push, pop or reset. -/
theorem hostMove_cases {e : HostEvent} {s t : State} (h : hostMove e s = .next t) :
    (∃ w ht c cs, t = { s with width := w, height := ht, channels := c, colorspace := cs }) ∨
    (∃ v, e = .write 4 0 v ∧ v.getLsbD 0 = true ∧ s.state ≠ .busy ∧
      t = startJob { s with ctrlMode := modeOf (v.getLsbD 1), ctrlIrqEn := v.getLsbD 3 }) ∨
    (∃ v, e = .write 4 0 v ∧ (v.getLsbD 0 = false ∨ s.state = .busy) ∧
      t = { s with
        ctrlMode := modeOf (v.getLsbD 1), ctrlIrqEn := v.getLsbD 3,
        state := if v.getLsbD 2 = true ∧ (s.state = .done ∨ s.state = .error) then .idle else s.state }) ∨
    (∃ off, e = .read 4 off ∧ t = { s with reads := s.reads ++ [hostRead off s] }) ∨
    (∃ tok, e = .push tok ∧ s.state = .busy ∧ s.inq.length < Config.inDepth ∧ kindMatches s.jobMode tok = true ∧
      t = { s with inq := s.inq ++ [tok] }) ∨
    (∃ tok rest, e = .pop ∧ s.out = tok :: rest ∧ t = { s with out := rest, popped := s.popped ++ [tok] }) ∨
    (e = .reset ∧ t = resetBlock s) := by
  cases e with
  | write size off v =>
    simp only [hostMove] at h
    split at h
    · rename_i hl
      simp only [legalAccess, decide_eq_true_eq] at hl
      obtain ⟨rfl, _, _⟩ := hl
      injection h with h
      subst h
      unfold hostWrite
      by_cases h0 : off = 0
      · subst h0
        rw [if_pos rfl]
        by_cases hst : v.getLsbD 0 = true ∧ s.state ≠ .busy
        · exact .inr (.inl ⟨v, rfl, hst.1, hst.2, writeCtrl_start v s hst.1 hst.2⟩)
        · have hn : v.getLsbD 0 = false ∨ s.state = .busy := by
            by_contra hc
            push Not at hc
            exact hst ⟨by simpa using hc.1, hc.2⟩
          refine .inr (.inr (.inl ⟨v, rfl, hn, ?_⟩))
          rw [writeCtrl_no_start v s hn]
          split
          · rename_i h2
            unfold ackJob
            cases hs : s.state <;> simp <;> simpa using h2
          · rename_i h2
            rw [if_neg (fun hc => h2 hc.1)]
      · left
        rw [if_neg h0]
        repeat' split
        all_goals exact ⟨_, _, _, _, rfl⟩
    · cases h
  | read size off =>
    simp only [hostMove] at h
    split at h
    · rename_i hl
      simp only [legalAccess, decide_eq_true_eq] at hl
      obtain ⟨rfl, _, _⟩ := hl
      injection h with h
      subst h
      exact .inr (.inr (.inr (.inl ⟨off, rfl, rfl⟩)))
    · cases h
  | push tok =>
    simp only [hostMove, hostPush] at h
    split at h
    · cases h
    split at h
    · cases h
    split at h
    · cases h
    rename_i h1 h2 h3
    injection h with h
    subst h
    exact .inr (.inr (.inr (.inr (.inl ⟨tok, rfl, by simpa using h1, by omega, by simpa using h3, rfl⟩))))
  | pop =>
    simp only [hostMove, hostPop] at h
    split at h
    · cases h
    · rename_i tok rest ho
      injection h with h
      subst h
      exact .inr (.inr (.inr (.inr (.inr (.inl ⟨tok, rest, rfl, ho, rfl⟩)))))
  | reset =>
    injection h with h
    exact .inr (.inr (.inr (.inr (.inr (.inr ⟨rfl, h.symm⟩)))))

end Sys2Proof.Machine
end

