-- ==== Sys2Proof/Laws/Decode.lean ====
section
/-! SUPPORT. What the decoder reads, and how the bit fields of the encoder and the decoder meet. -/

namespace Sys2Proof

theorem within_iff (lo hi x : Int) : within lo hi x = true ↔ lo ≤ x ∧ x ≤ hi := by simp [within]

/-- Where the bytes suffice, the decoder reads the chunk of the first five and leaves the rest. -/
theorem decode_cons (b0 : Byte) (bs : List Byte) (h : chunkLength b0 ≤ bs.length + 1) :
    decode (b0 :: bs) = .chunk (decodeChunk b0 (bs.getD 0 0) (bs.getD 1 0) (bs.getD 2 0) (bs.getD 3 0))
      (bs.drop (chunkLength b0 - 1)) := by
  have : ¬ bs.length + 1 < chunkLength b0 := by omega
  simp [decode, this]

/-- A field formed from a number that fits holds that number. -/
theorem toNat_ofInt_of_fits (w : Nat) (x : Int) (h0 : 0 ≤ x) (h1 : x < 2 ^ w) :
    ((BitVec.ofInt w x).toNat : Int) = x := by
  rw [BitVec.toNat_ofInt]
  have : (0 : Int) < ((2 ^ w : Nat) : Int) := by positivity
  rw [Int.toNat_of_nonneg (Int.emod_nonneg _ (by omega))]
  exact Int.emod_eq_of_lt h0 (by push_cast; exact h1)

/-! The fields of a byte built from fields. -/

theorem index_byte_fields (f : BitVec 6) :
    kindOf (0b00#2 ++ f) = .index ∧ BitVec.extractLsb 5 0 (0b00#2 ++ f : Byte) = f := by
  revert f; decide

theorem diff_byte_fields (f g h : BitVec 2) :
    kindOf (0b01#2 ++ f ++ g ++ h) = .diff ∧ BitVec.extractLsb 5 4 (0b01#2 ++ f ++ g ++ h : Byte) = f ∧
    BitVec.extractLsb 3 2 (0b01#2 ++ f ++ g ++ h : Byte) = g ∧
    BitVec.extractLsb 1 0 (0b01#2 ++ f ++ g ++ h : Byte) = h := by
  revert f g h; decide

theorem luma_byte_fields (f : BitVec 6) :
    kindOf (0b10#2 ++ f) = .luma ∧ BitVec.extractLsb 5 0 (0b10#2 ++ f : Byte) = f := by
  revert f; decide

theorem nibble_byte_fields (f g : BitVec 4) :
    BitVec.extractLsb 7 4 (f ++ g : Byte) = f ∧ BitVec.extractLsb 3 0 (f ++ g : Byte) = g := by
  revert f g; decide

theorem run_byte_fields (f : BitVec 6) (h : f.toNat ≤ 61) :
    kindOf (0b11#2 ++ f) = .run ∧ BitVec.extractLsb 5 0 (0b11#2 ++ f : Byte) = f := by
  revert f; decide

/-! A byte rebuilt from its fields. -/

theorem rgb_byte_eq (b : Byte) (h : kindOf b = .rgb) : b = 0xFE#8 := by
  revert b; decide

theorem rgba_byte_eq (b : Byte) (h : kindOf b = .rgba) : b = 0xFF#8 := by
  revert b; decide

theorem index_byte_eq (b : Byte) (h : kindOf b = .index) :
    (0b00#2 ++ BitVec.ofNat 6 (Fin.ofNat 64 (BitVec.extractLsb 5 0 b).toNat).val : Byte) = b := by
  revert b; decide

theorem diff_byte_eq (b : Byte) (h : kindOf b = .diff) :
    (0b01#2 ++ BitVec.ofInt 2 (((BitVec.extractLsb 5 4 b).toNat : Int) - 2 + 2) ++
      BitVec.ofInt 2 (((BitVec.extractLsb 3 2 b).toNat : Int) - 2 + 2) ++
      BitVec.ofInt 2 (((BitVec.extractLsb 1 0 b).toNat : Int) - 2 + 2) : Byte) = b := by
  revert b; decide

theorem luma_byte_eq (b : Byte) (h : kindOf b = .luma) :
    (0b10#2 ++ BitVec.ofInt 6 (((BitVec.extractLsb 5 0 b).toNat : Int) - 32 + 32) : Byte) = b := by
  revert b; decide

theorem nibble_byte_eq (b : Byte) :
    (BitVec.ofInt 4 ((BitVec.extractLsb 7 4 b).toNat : Int) ++
      BitVec.ofInt 4 ((BitVec.extractLsb 3 0 b).toNat : Int) : Byte) = b := by
  revert b; decide

/-- A RUN byte rebuilt from its field, which is at most 61 (R88). -/
theorem run_byte_eq (b : Byte) (h : kindOf b = .run) :
    (0b11#2 ++ BitVec.ofNat 6 ((BitVec.extractLsb 5 0 b).toNat + 1 - 1) : Byte) = b ∧
    (BitVec.extractLsb 5 0 b).toNat ≤ 61 := by
  revert b; decide

/-- The chunk in a buffer is of the kind its first byte names. -/
theorem decodeChunk_kind (b0 b1 b2 b3 b4 : Byte) : (decodeChunk b0 b1 b2 b3 b4).kind = kindOf b0 := by
  unfold decodeChunk
  cases kindOf b0 <;> rfl

/-- A RUN in a buffer is of at most 62 pixels. -/
theorem decodeChunk_run_le {b0 b1 b2 b3 b4 : Byte} {n : Nat} (h : decodeChunk b0 b1 b2 b3 b4 = .run n) :
    n ≤ 62 := by
  have hk : kindOf b0 = .run := by rw [← decodeChunk_kind b0 b1 b2 b3 b4, h]; rfl
  have := (run_byte_eq b0 hk).2
  simp only [decodeChunk, hk] at h
  injection h with h
  omega

end Sys2Proof
end

