-- ==== Sys2Proof/Laws/Ops.lean ====
section
/-! SUPPORT. What the shared operations and the six meanings can do: closed forms, and the frame of an instruction as
one case distinction. -/

namespace Sys2Proof.Machine

/-- Emitting a pixel `n` times, in one update. -/
theorem emitTimes_eq (n : Nat) (q : Pixel) (s : State) :
    emitTimes n q s =
      { s with out := s.out ++ List.replicate n (.pixel q), pixcnt := s.pixcnt + BitVec.ofNat 64 n } := by
  induction n generalizing s with
  | zero => simp [emitTimes]
  | succ n ih =>
    rw [emitTimes, ih]
    simp [emit, outPush, List.replicate_succ, BitVec.ofNat_add]
    bv_omega

/-- What an instruction can do, whichever it is: produce one pixel with or without a store, emit `prev` as a run, or
raise PIXEL_COUNT. -/
theorem exec_cases (i : Instr) (s : State) :
    (∃ q, exec i s = .next (produceStored q s)) ∨
    (∃ j, i = .index j ∧ exec i s = .next (produce (cacheLookup s.cache j) s)) ∨
    (∃ n, i = .run n ∧ s.pixcnt.toNat + n ≤ s.npix.toNat ∧ exec i s = .next (emitTimes n s.prev s)) ∨
    (∃ n, i = .run n ∧ s.npix.toNat < s.pixcnt.toNat + n ∧ exec i s = .next (raiseError .pixelCount s)) := by
  cases i with
  | rgb r g b => exact .inl ⟨_, rfl⟩
  | rgba r g b a => exact .inl ⟨_, rfl⟩
  | index j => exact .inr (.inl ⟨j, rfl, rfl⟩)
  | diff dr dg db => exact .inl ⟨_, rfl⟩
  | luma dr dg db => exact .inl ⟨_, rfl⟩
  | run n =>
    by_cases h : s.npix.toNat < s.pixcnt.toNat + n
    · exact .inr (.inr (.inr ⟨n, rfl, h, by simp [exec, execRun, h]⟩))
    · exact .inr (.inr (.inl ⟨n, rfl, by omega, by simp [exec, execRun, h]⟩))

/-- ACK only ever changes the job state, and only from DONE and ERROR to IDLE. -/
theorem ackJob_eq (s : State) :
    ackJob s = { s with state := if s.state = .done ∨ s.state = .error then .idle else s.state } := by
  unfold ackJob
  cases h : s.state <;> simp <;> cases s <;> simp_all

end Sys2Proof.Machine
end

