-- ==== Sys2Proof/Laws/PerInstr.lean ====
section
/-! SUPPORT. Statements made per instruction: the length and the kind of an instruction's bytes. -/

namespace Sys2Proof.Laws.ChunkLength

/-- A well-formed instruction's bytes are as many as R84 gives its kind, and their first byte names that kind and that
length (spec/30_encoding.md R84, R94). -/
def Statement (i : Instr) : Prop :=
  i.wellFormed = true →
    (encode i).length = kindLength i.kind ∧ kindOf ((encode i).getD 0 0) = i.kind ∧
    chunkLength ((encode i).getD 0 0) = (encode i).length

theorem of_kind {i : Instr} (h1 : (encode i).length = kindLength i.kind)
    (h2 : kindOf ((encode i).getD 0 0) = i.kind) :
    (encode i).length = kindLength i.kind ∧ kindOf ((encode i).getD 0 0) = i.kind ∧
    chunkLength ((encode i).getD 0 0) = (encode i).length :=
  ⟨h1, h2, by rw [chunkLength, h2, h1]⟩

theorem rgb (r g b : Byte) : Statement (.rgb r g b) := fun _ => of_kind rfl rfl

theorem rgba (r g b a : Byte) : Statement (.rgba r g b a) := fun _ => of_kind rfl rfl

theorem index (i : Fin 64) : Statement (.index i) := fun _ => of_kind rfl (index_byte_fields _).1

theorem diff (dr dg db : Int) : Statement (.diff dr dg db) := fun _ => of_kind rfl (diff_byte_fields _ _ _).1

theorem luma (dr dg db : Int) : Statement (.luma dr dg db) := fun _ => of_kind rfl (luma_byte_fields _).1

theorem run (n : Nat) : Statement (.run n) := by
  intro h
  simp only [Instr.wellFormed, decide_eq_true_eq] at h
  exact of_kind rfl (run_byte_fields _ (by simp; omega)).1

end Sys2Proof.Laws.ChunkLength
end

