-- ==== Sys2Proof/Laws/Step.lean ====
section
/-! SUPPORT. What a step can do: which agent moves, and the block's step as one case distinction. -/

namespace Sys2Proof.Machine

/-- With no move planned, or with the block's move first, the step is the block's. -/
theorem step_block (s : State) (ts : List Turn) (h : (s.turns = [] ∧ ts = []) ∨ s.turns = .block :: ts) :
    step s = blockStep { s with turns := ts } := by
  rcases h with ⟨h, rfl⟩ | h
  · simp only [step, h]
    congr 1
    cases s
    simp_all
  · simp only [step, h]

theorem step_unplanned (s : State) (h : s.turns = []) : step s = blockStep s := by
  simp only [step, h]

theorem step_host (s : State) (e : HostEvent) (ts : List Turn) (h : s.turns = .host e :: ts) :
    step s = hostMove e { s with turns := ts } := by
  simp only [step, h]

/-- A decode job's step fires. -/
theorem blockStep_decode (s : State) (t : InToken) (rest : List InToken) (h1 : s.state = .busy)
    (h2 : s.jobMode = .decode) (h3 : s.inq = t :: rest) (h4 : s.out.length + roomNeeded s ≤ Config.outDepth) :
    blockStep s = decoderStep t { s with inq := rest } := by
  simp [blockStep, h3, canStep, h1, hasRoom, h4, takesTokens, h2, jobStep]

/-- An encode job's step fires. -/
theorem blockStep_encode (s : State) (t : InToken) (rest : List InToken) (h1 : s.state = .busy)
    (h2 : s.jobMode = .encode) (h3 : s.inq = t :: rest) (h4 : s.out.length + 15 ≤ Config.outDepth)
    (h5 : s.pixcnt.toNat < s.npix.toNat) : blockStep s = encoderStep t { s with inq := rest } := by
  have : s.pixcnt < s.npix := h5
  simp [blockStep, h3, canStep, h1, hasRoom, roomNeeded, h2, h4, takesTokens, jobStep, this]

/-- What a block step can do: nothing, or one step of the job with the token popped. -/
theorem blockStep_cases {s : State} {r : StepResult} (h : blockStep s = r) :
    r = .next s ∨
    ∃ tok rest, s.inq = tok :: rest ∧ s.state = .busy ∧ s.out.length + roomNeeded s ≤ Config.outDepth ∧
      ((s.jobMode = .encode ∧ s.pixcnt.toNat < s.npix.toNat ∧ r = encoderStep tok { s with inq := rest }) ∨
       (s.jobMode = .decode ∧ r = decoderStep tok { s with inq := rest })) := by
  unfold blockStep at h
  split at h
  · exact .inl h.symm
  · rename_i tok rest hi
    split at h
    · rename_i hc
      simp only [canStep, hasRoom, takesTokens, Bool.and_eq_true, decide_eq_true_eq] at hc
      obtain ⟨⟨hb, hr⟩, hk⟩ := hc
      refine .inr ⟨tok, rest, hi, hb, hr, ?_⟩
      cases hm : s.jobMode with
      | encode =>
        simp only [hm, decide_eq_true_eq] at hk
        exact .inl ⟨rfl, hk, by rw [← h]; simp [jobStep, hm]⟩
      | decode => exact .inr ⟨rfl, by rw [← h]; simp [jobStep, hm]⟩
    · exact .inl h.symm

/-- An encoder step on a pixel whose front-end result is known. -/
theorem encoderStep_pixel {p : Pixel} {s : State} {bs : List Byte} {r : Nat} {slots : Cache}
    (h : takePixel s.prev s.cache s.run.toNat (isLastPixel s) p = ⟨.ok bs, r, slots⟩) :
    encoderStep (.pixel p) s = .next (if isLastPixel s then encoderFinish (encoderCommit p ⟨.ok bs, r, slots⟩ bs s)
      else encoderCommit p ⟨.ok bs, r, slots⟩ bs s) := by
  simp only [encoderStep, h]

/-- What an encoder step can do, on a run below 62. -/
theorem encoderStep_cases (tok : InToken) (s : State) (hrun : s.run.toNat < 62) :
    (tok = .eos ∧ encoderStep tok s = .next (raiseError .inputShort s)) ∨
    (∃ b, tok = .byte b ∧ encoderStep tok s = .refused .wrongTokenInQueue) ∨
    (∃ p bs r slots, tok = .pixel p ∧ bs.length ≤ 6 ∧ r < 62 ∧ (isLastPixel s = true → r = 0) ∧
      (slots = s.cache ∨ slots = cacheStore s.cache p) ∧
      encoderStep tok s = .next (if isLastPixel s then encoderFinish (encoderCommit p ⟨.ok bs, r, slots⟩ bs s)
        else encoderCommit p ⟨.ok bs, r, slots⟩ bs s)) := by
  cases tok with
  | eos => exact .inl ⟨rfl, rfl⟩
  | byte b => exact .inr (.inl ⟨b, rfl, rfl⟩)
  | pixel p =>
    obtain ⟨bs, r, slots, hk, h1, h2, h3, h4⟩ := takePixel_cases s.prev s.cache s.run.toNat (isLastPixel s) p hrun
    exact .inr (.inr ⟨p, bs, r, slots, rfl, h1, h2, h3, h4, encoderStep_pixel hk⟩)

/-- The step of the phase the decoder is in. -/
theorem decoderStep_hdr {s : State} {k : Fin 14} (h : s.dphase = .hdr k) (t : InToken) :
    decoderStep t s = headerStep k t s := by
  simp only [decoderStep, h]

theorem decoderStep_chunk {s : State} {k : Fin 5} (h : s.dphase = .chunk k) (t : InToken) :
    decoderStep t s = chunkStep k t s := by
  simp only [decoderStep, h]

theorem decoderStep_endm {s : State} {k : Fin 8} (h : s.dphase = .endm k) (t : InToken) :
    decoderStep t s = endMarkerStep k t s := by
  simp only [decoderStep, h]

/-- The end marker, byte by byte (spec/30_encoding.md R83). -/
theorem endMarker_getD (k : Fin 8) : endMarker.getD k.val 0 = if k.val = 7 then 1#8 else 0#8 := by
  revert k
  decide

/-- The five bytes of `opbuf` as a list. -/
theorem opbuf_toList (v : Vector Byte 5) : v.toList = [v[0], v[1], v[2], v[3], v[4]] := by
  apply List.ext_getElem (by simp)
  intro i h1 h2
  simp at h1
  interval_cases i <;> simp

/-- The step that takes a chunk's last byte. -/
theorem chunkStep_last (k : Fin 5) (b : Byte) (s : State)
    (h : chunkLength (s.opbuf.set k.val b k.isLt)[0] ≤ k.val + 1) :
    chunkStep k (.byte b) s =
      commitChunk (s.opbuf.set k.val b k.isLt) (exec (bufferedChunk (s.opbuf.set k.val b k.isLt)) s) := by
  simp only [chunkStep]
  rw [dif_neg (by omega)]

/-- The step that takes an earlier byte of a chunk. -/
theorem chunkStep_earlier (k : Fin 5) (b : Byte) (s : State)
    (h : k.val + 1 < chunkLength (s.opbuf.set k.val b k.isLt)[0]) :
    chunkStep k (.byte b) s = .next { s with
      opbuf := s.opbuf.set k.val b k.isLt
      bytecnt := s.bytecnt + 1
      dphase := .chunk ⟨k.val + 1, Nat.lt_of_lt_of_le h (chunkLength_le_five _)⟩ } := by
  simp only [chunkStep]
  rw [dif_pos h]

/-- What is left of a chunk's outcome once the driver's own effects are added. -/
theorem commitChunk_next {op : Vector Byte 5} {t : State} {r : StepResult} (h : commitChunk op r = .next t) :
    ∃ u, r = .next u ∧
      ((u.state = .busy ∧
        t = { u with opbuf := op, bytecnt := u.bytecnt + 1, dphase := phaseAfterChunk u }) ∨
       (u.state ≠ .busy ∧ t = u)) := by
  unfold commitChunk at h
  split at h
  · rename_i u
    split at h
    · injection h with h
      exact ⟨u, rfl, .inl ⟨by assumption, h.symm⟩⟩
    · injection h with h
      exact ⟨u, rfl, .inr ⟨by assumption, h.symm⟩⟩
  · cases h
  · cases h

/-- The chunk in the buffer is well formed, so a RUN in it is of 1 to 62 pixels (spec/30_encoding.md R88). -/
theorem bufferedChunk_run {op : Vector Byte 5} {n : Nat} (h : bufferedChunk op = .run n) : 1 ≤ n ∧ n ≤ 62 := by
  have hk : kindOf op[0] = .run := by
    rw [← decodeChunk_kind op[0] op[1] op[2] op[3] op[4]]
    unfold bufferedChunk at h
    rw [h]
    rfl
  have hn : n = (BitVec.extractLsb 5 0 op[0]).toNat + 1 := by
    unfold bufferedChunk decodeChunk at h
    rw [hk] at h
    injection h with h
    exact h.symm
  have := (run_byte_eq op[0] hk).2
  omega

/-- What a decoder step can do: refuse a Pixel, raise an error, take a header byte, accept the header, take a chunk's
earlier byte, execute a chunk, take an end-marker byte, or complete the job. -/
theorem decoderStep_cases (tok : InToken) (s : State) :
    (∃ p, tok = .pixel p ∧ decoderStep tok s = .refused .wrongTokenInQueue) ∨
    (∃ e, e ≠ .none ∧ decoderStep tok s = .next (raiseError e s)) ∨
    (∃ (k : Fin 14) (b : Byte) (h : k.val + 1 < 14), s.dphase = .hdr k ∧
      decoderStep tok s = .next { s with
        hdrbuf := s.hdrbuf.set k.val b k.isLt, bytecnt := s.bytecnt + 1, dphase := .hdr ⟨k.val + 1, h⟩ }) ∨
    (∃ (b : Byte) (hd : Header), s.dphase = .hdr 13 ∧ headerCheck hd = .ok hd ∧
      decoderStep tok s = .next (acceptHeader hd { s with
        hdrbuf := s.hdrbuf.set 13 b, bytecnt := s.bytecnt + 1 })) ∨
    (∃ (k : Fin 5) (b : Byte) (h : k.val + 1 < 5), s.dphase = .chunk k ∧
      k.val + 1 < chunkLength (s.opbuf.set k.val b k.isLt)[0] ∧
      decoderStep tok s = .next { s with
        opbuf := s.opbuf.set k.val b k.isLt, bytecnt := s.bytecnt + 1, dphase := .chunk ⟨k.val + 1, h⟩ }) ∨
    (∃ (k : Fin 5) (op : Vector Byte 5), s.dphase = .chunk k ∧
      decoderStep tok s = commitChunk op (exec (bufferedChunk op) s)) ∨
    (∃ (k : Fin 8) (h : k.val + 1 < 8), s.dphase = .endm k ∧
      decoderStep tok s = .next { s with bytecnt := s.bytecnt + 1, dphase := .endm ⟨k.val + 1, h⟩ }) ∨
    (∃ k, s.dphase = .endm k ∧ decoderStep tok s = .next (completeJob { s with bytecnt := s.bytecnt + 1 })) := by
  cases hd : s.dphase with
  | hdr k =>
    rw [decoderStep_hdr hd]
    cases tok with
    | pixel p => exact .inl ⟨p, rfl, rfl⟩
    | eos => exact .inr (.inl ⟨.header, by decide, rfl⟩)
    | byte b =>
      unfold headerStep
      dsimp only
      split
      · rename_i h
        exact .inr (.inr (.inl ⟨k, b, h, rfl, rfl⟩))
      · rename_i h
        obtain rfl : k = 13 := by apply Fin.ext; have := k.isLt; simp; omega
        split
        · rename_i e he
          exact .inr (.inl ⟨e, (headerDecode_raised he).2, rfl⟩)
        · rename_i hdr he
          exact .inr (.inr (.inr (.inl ⟨b, hdr, rfl, headerDecode_ok he, rfl⟩)))
  | chunk k =>
    rw [decoderStep_chunk hd]
    cases tok with
    | pixel p => exact .inl ⟨p, rfl, rfl⟩
    | eos =>
      refine .inr (.inl ⟨if k.val = 0 then .pixels else .chunk, ?_, rfl⟩)
      split <;> decide
    | byte b =>
      by_cases h : k.val + 1 < chunkLength (s.opbuf.set k.val b k.isLt)[0]
      · exact .inr (.inr (.inr (.inr (.inl ⟨k, b, Nat.lt_of_lt_of_le h (chunkLength_le_five _), rfl, h,
          chunkStep_earlier k b s h⟩))))
      · exact .inr (.inr (.inr (.inr (.inr (.inl ⟨k, _, rfl, chunkStep_last k b s (by omega)⟩)))))
  | endm k =>
    rw [decoderStep_endm hd]
    cases tok with
    | pixel p => exact .inl ⟨p, rfl, rfl⟩
    | eos => exact .inr (.inl ⟨.endMarker, by decide, rfl⟩)
    | byte b =>
      unfold endMarkerStep
      dsimp only
      split
      · exact .inr (.inl ⟨.endMarker, by decide, rfl⟩)
      split
      · rename_i h
        exact .inr (.inr (.inr (.inr (.inr (.inr (.inl ⟨k, h, rfl, rfl⟩))))))
      · exact .inr (.inr (.inr (.inr (.inr (.inr (.inr ⟨k, rfl, by rw [hd]⟩))))))

end Sys2Proof.Machine
end

