-- ==== Sys2Proof/Laws/Session.lean ====
section
/-! SUPPORT. The host's sessions: draining OUT, feeding one token to a job that is waiting for it, and how a chunk's
execution ignores the driver's own registers. -/

namespace Sys2Proof.Machine

/-- Popping as often as OUT has tokens empties it, in order. -/
theorem moves_pop (n : Nat) (s : State) (ht : s.turns = []) (h : s.out.length = n) :
    moves (List.replicate n (.host .pop)) s = .next { s with out := [], popped := s.popped ++ s.out } := by
  induction n generalizing s with
  | zero =>
    have ho : s.out = [] := by simpa using h
    simp [moves, ho]
    cases s
    simp_all
  | succ n ih =>
    cases ho : s.out with
    | nil =>
      rw [ho] at h
      cases h
    | cons t rest =>
      simp only [List.replicate_succ, moves, move_host, hostMove, hostPop, ho, andThen]
      rw [ih _ rfl (by rw [ho] at h; simpa using h)]
      simp [ht]

theorem drain_eq (s : State) (ht : s.turns = []) :
    drain s = .next { s with out := [], popped := s.popped ++ s.out } :=
  moves_pop _ s ht rfl

/-- A job that waits for its next token: BUSY, with both queues empty and no move planned. -/
structure Waiting (s : State) : Prop where
  inq : s.inq = []
  out : s.out = []
  turns : s.turns = []
  busy : s.state = .busy

/-- A waiting job takes the token it is fed in one step of its own. -/
theorem feedToken_eq (t : InToken) (s : State) (w : Waiting s) (hk : kindMatches s.jobMode t = true) :
    feedToken t s = andThen (blockStep { s with inq := [t] }) drain := by
  obtain ⟨h1, h2, h3, h4⟩ := w
  have hp : hostMove (.push t) { s with turns := [] } = .next { s with inq := [t], turns := [] } := by
    simp [hostMove, hostPush, h4, h1, Config.inDepth, hk]
  simp only [feedToken, moves, move_host, hp, andThen, move_block]
  have hs : ({ s with inq := [t], turns := [] } : State) = { s with inq := [t] } := by
    cases s
    simp_all
  rw [hs]
  cases blockStep { s with inq := [t] } <;> rfl

theorem feedToken_decode (t : InToken) (s : State) (w : Waiting s) (hm : s.jobMode = .decode)
    (hk : kindMatches s.jobMode t = true) : feedToken t s = andThen (decoderStep t s) drain := by
  rw [feedToken_eq t s w hk]
  have hb := blockStep_decode { s with inq := [t] } t [] w.busy hm rfl (by
    rw [w.out]
    simp [roomNeeded, hm]
    unfold Config.outDepth
    split <;> simp)
  rw [hb]
  have hs : ({ s with inq := [] } : State) = s := by
    have := w.inq
    cases s
    simp_all
  rw [hs]

theorem feedToken_encode (t : InToken) (s : State) (w : Waiting s) (hm : s.jobMode = .encode)
    (hk : kindMatches s.jobMode t = true) (hp : s.pixcnt.toNat < s.npix.toNat) :
    feedToken t s = andThen (encoderStep t s) drain := by
  rw [feedToken_eq t s w hk]
  have hb := blockStep_encode { s with inq := [t] } t [] w.busy hm rfl (by
    rw [w.out]
    simp [Config.outDepth]) hp
  rw [hb]
  have hs : ({ s with inq := [] } : State) = s := by
    have := w.inq
    cases s
    simp_all
  rw [hs]

theorem feed_append (xs ys : List InToken) (s : State) : feed (xs ++ ys) s = andThen (feed xs s) (feed ys) := by
  induction xs generalizing s with
  | nil => rfl
  | cons x xs ih =>
    simp only [List.cons_append, feed]
    cases feedToken x s with
    | next t => exact ih t
    | fault f => rfl
    | refused w => rfl

/-- A chunk neither reads nor writes the driver's buffer, byte counter and phase (spec/43_chunk_decode.md R178). -/
theorem exec_driver_registers (i : Instr) (d u : State) (op : Vector Byte 5) (bc : Count) (ph : DPhase)
    (h : exec i d = .next u) :
    exec i { d with opbuf := op, bytecnt := bc, dphase := ph } =
      .next { u with opbuf := op, bytecnt := bc, dphase := ph } := by
  cases i with
  | run n =>
    simp only [exec, execRun] at h ⊢
    split at h
    · rename_i hc
      rw [if_pos hc]
      injection h with h
      subst h
      rfl
    · rename_i hc
      rw [if_neg hc]
      injection h with h
      subst h
      rw [emitTimes_eq, emitTimes_eq]
  | rgb r g b => injection h with h; subst h; rfl
  | rgba r g b a => injection h with h; subst h; rfl
  | index j => injection h with h; subst h; rfl
  | diff dr dg db => injection h with h; subst h; rfl
  | luma dr dg db => injection h with h; subst h; rfl

end Sys2Proof.Machine
end

