-- ==== Sys2Proof/Tests/Slice0.lean ====
section
/-! SUPPORT. Tests with expected results from spec/95_test_vectors.md (its vector is named at each) or worked out by
hand from the named rule, and for every statement with hypotheses a concrete state and operands that meet them. -/

namespace Sys2Proof.Tests

open Sys2Proof Sys2Proof.Machine

/-! ### Helpers -/

/-- A field of the next state, if there is one. -/
def seen {α : Type} (r : StepResult) (f : State → α) : Option α :=
  match r with
  | .next t => some (f t)
  | .fault _ => none
  | .refused _ => none

/-- The step took this exit. -/
def refusedWith (r : StepResult) (w : Refusal) : Bool :=
  match r with
  | .next _ => false
  | .fault _ => false
  | .refused v => decide (v = w)

/-- The pixel `A` of spec/95_test_vectors.md. -/
def pixelA : Pixel := ⟨10, 20, 30, 255⟩

/-- A cache of zero pixels. -/
def emptyCache : Cache := Vector.replicate 64 zeroPixel

/-- A decode job of two pixels in this phase, with these tokens in IN. -/
def decoding (ph : DPhase) (toks : List InToken) : State :=
  { State.reset with
    state := .busy, jobMode := .decode, npix := 2, hdrValid := true, dphase := ph, inq := toks }

/-- A decode job that has taken the first 13 bytes of the header 1 x 1, 3 channels. -/
def headerTaken (toks : List InToken) : State :=
  { State.reset with
    state := .busy, jobMode := .decode, bytecnt := 13, dphase := .hdr 13,
    hdrbuf := #v[0x71, 0x6F, 0x69, 0x66, 0, 0, 0, 1, 0, 0, 0, 1, 3, 0], inq := toks }

/-- An encode job of 100 pixels that has taken `done` of them and holds a run, with these tokens in IN. -/
def encoding (done : Count) (run : BitVec 6) (toks : List InToken) : State :=
  { State.reset with
    state := .busy, npix := 100, pixcnt := done, hdrValid := true, run := run,
    encState := if run = 0 then .scanning else .inRun, inq := toks }

/-- A finished job in this state, of the reset machine. -/
def ended (js : JobState) : State := { State.reset with state := js }

/-! ### WellFormed: an ill-formed term for each check -/

theorem test_wellFormed_accepts : (Instr.diff (-2) 1 0).wellFormed = true ∧ (Instr.luma 38 31 24).wellFormed = true ∧
    (Instr.run 1).wellFormed = true ∧ (Instr.run 62).wellFormed = true := by decide

theorem test_wellFormed_refuses_diff : (Instr.diff 2 0 0).wellFormed = false ∧
    (Instr.diff 0 (-3) 0).wellFormed = false ∧ (Instr.diff 0 0 2).wellFormed = false := by decide

theorem test_wellFormed_refuses_luma : (Instr.luma 0 32 0).wellFormed = false ∧
    (Instr.luma 9 0 0).wellFormed = false ∧ (Instr.luma 0 0 (-9)).wellFormed = false := by decide

theorem test_wellFormed_refuses_run : (Instr.run 0).wellFormed = false ∧ (Instr.run 63).wellFormed = false := by decide

/-! ### Decoding: words written out from the encodings of spec/30_encoding.md -/

/-- R89: `11111110`, then r, g, b. -/
theorem test_decode_rgb : decode [0b11111110#8, 0b00001010#8, 0b00010100#8, 0b00011110#8, 0x77#8] =
    .chunk (.rgb 10 20 30) [0x77#8] := by decide

/-- R90: `11111111`, then r, g, b, a. -/
theorem test_decode_rgba : decode [0b11111111#8, 0b00001010#8, 0b00010100#8, 0b00011110#8, 0b00101000#8] =
    .chunk (.rgba 10 20 30 40) [] := by decide

/-- R85: `00iiiiii`. -/
theorem test_decode_index : decode [0b00110101#8] = .chunk (.index 53) [] := by decide

/-- R86, VF4: `01rrggbb` with the fields 3, 0, 2. -/
theorem test_decode_diff : decode [0b01110010#8] = .chunk (.diff 1 (-2) 0) [] := by decide

/-- R87, VF12: `10gggggg rrrrbbbb` with the fields 63, 15, 1. -/
theorem test_decode_luma : decode [0b10111111#8, 0b11110001#8] = .chunk (.luma 38 31 24) [] := by decide

/-- R88: `11nnnnnn` with the field 41. -/
theorem test_decode_run : decode [0b11101001#8] = .chunk (.run 42) [] := by decide

/-- R84: 0xFD is the last RUN; 0xFE and 0xFF are tested first. -/
theorem test_decode_tags : decode [0xFD#8] = .chunk (.run 62) [] ∧
    decode [0xFE#8, 0, 0] = .rejected (.truncated .rgb) ∧
    decode [0xFF#8, 0, 0, 0] = .rejected (.truncated .rgba) ∧ decode [] = .rejected .noBytes := by decide

/-- VF8, VF9, VF11, VF13, VF14. -/
theorem test_encode_luma : encode (.luma (-40) (-32) (-40)) = [0x80#8, 0x00#8] ∧
    encode (.luma 38 31 38) = [0xBF#8, 0xFF#8] ∧ encode (.luma (-25) (-32) (-25)) = [0x80#8, 0xFF#8] ∧
    encode (.luma (-1) (-3) 2) = [0x9D#8, 0xAD#8] ∧ encode (.luma (-18) (-19) (-18)) = [0x8D#8, 0x99#8] := by decide

/-- The rows of the opcode table, by their own bits alone. -/
theorem test_table_words : decodeTableWord 8 0xFE = some (.rgb 0 0 0) ∧ decodeTableWord 8 0xFF = some (.rgba 0 0 0 0) ∧
    decodeTableWord 8 0x00 = some (.index 0) ∧ decodeTableWord 8 0x40 = some (.diff (-2) (-2) (-2)) ∧
    decodeTableWord 16 0x0180 = some (.luma (-40) (-32) (-39)) ∧ decodeTableWord 8 0xC0 = some (.run 1) := by decide

/-- The bits at and above `nbits` are 0. -/
theorem test_table_word_masks : decodeTableWord 32 0x1E140AFE = some (.rgb 10 20 30) ∧
    decodeTableWord 16 0x1E140AFE = some (.rgb 10 0 0) := by decide

/-! ### One step on each chunk, from the job-start pixel and an empty cache (2.5 of the vectors) -/

/-- VK1. -/
theorem test_step_rgb : seen (step (State.reset.withFetchWord 32 0x1E140AFE))
    (fun t => (t.prev, t.out, t.cache == emptyCache.set 9 pixelA, t.pixcnt)) =
    some (pixelA, [.pixel pixelA], true, 1) := by decide

/-- VK14: alpha comes from `prev`. -/
theorem test_exec_rgb_keeps_alpha : seen (exec (.rgb 9 9 9) { State.reset with prev := ⟨1, 2, 3, 0⟩ })
    (fun t => (t.prev, t.cache == emptyCache.set 7 ⟨9, 9, 9, 0⟩)) = some (⟨9, 9, 9, 0⟩, true) := by decide

/-- VK2. -/
theorem test_step_rgba : seen (step (State.reset.withFetchWord 40 0x281E140AFF))
    (fun t => (t.prev, t.out, t.cache == emptyCache.set 12 ⟨10, 20, 30, 40⟩)) =
    some (⟨10, 20, 30, 40⟩, [.pixel ⟨10, 20, 30, 40⟩], true) := by decide

/-- VK4: slot 53 is zero although START_PIXEL hashes to it; nothing is stored. -/
theorem test_step_index : seen (step (State.reset.withFetchWord 8 0x35)) (fun t => (t.prev, t.out, t.cache == emptyCache)) =
    some (zeroPixel, [.pixel zeroPixel], true) := by decide

/-- VK15: a slot that holds a pixel. -/
theorem test_exec_index_hit : seen (exec (.index 9) { State.reset with cache := emptyCache.set 9 pixelA })
    (fun t => t.prev) = some pixelA := by decide

/-- VK5: the channels wrap. -/
theorem test_step_diff : seen (step (State.reset.withFetchWord 8 0x40))
    (fun t => (t.prev, t.cache == emptyCache.set 23 ⟨254, 254, 254, 255⟩)) = some (⟨254, 254, 254, 255⟩, true) := by decide

/-- VK9: dg -32, the others 7 above it. -/
theorem test_step_luma : seen (step (State.reset.withFetchWord 16 0xFF80))
    (fun t => (t.prev, t.cache == emptyCache.set 27 ⟨231, 224, 231, 255⟩)) = some (⟨231, 224, 231, 255⟩, true) := by decide

/-- VK12: `prev` once, nothing stored. -/
theorem test_step_run : seen (step (State.reset.withFetchWord 8 0xC0))
    (fun t => (t.prev, t.out, t.pixcnt, t.dphase, t.cache == emptyCache)) =
    some (startPixel, [.pixel startPixel], 1, .chunk 0, true) := by decide

/-- R226: the run that makes the last pixels opens the end marker. -/
theorem test_step_run_last : seen (step (decoding (.chunk 0) [.byte 0xC1#8])) (fun t => (t.out, t.dphase, t.state)) =
    some ([.pixel startPixel, .pixel startPixel], .endm 0, .busy) := by decide

/-- VD10: RUN 3 with two pixels left. -/
theorem test_step_run_overshoot : seen (step (decoding (.chunk 0) [.byte 0xC2#8]))
    (fun t => (t.state, t.errCode, t.out, t.pixcnt, t.bytecnt)) =
    some (.error, .pixelCount, [.abortMark .format .pixelCount], 0, 0) := by decide

/-- R178: the first byte of a LUMA is only buffered. -/
theorem test_step_first_byte : seen (step (decoding (.chunk 0) [.byte 0x80#8]))
    (fun t => (t.dphase, t.bytecnt, t.out, t.opbuf[0])) = some (.chunk 1, 1, [], 0x80#8) := by decide

/-- R61: the bus form of a pixel, and the place of pixel 7 in rows of 3. -/
theorem test_pixel_word : packPixel ⟨1, 2, 3, 4⟩ = 0x01020304#32 ∧ unpackPixel 0x01020304#32 = ⟨1, 2, 3, 4⟩ ∧
    pixelPosition 3 7 = (2, 1) := by decide

/-! ### Header, end marker and EOS -/

/-- S5 and S6. -/
theorem test_header_source : headerEncode ⟨64, 32, 3, 0⟩ =
      .ok [0x71#8, 0x6F#8, 0x69#8, 0x66#8, 0, 0, 0, 64, 0, 0, 0, 32, 3, 0] ∧
    headerDecode #v[0x71, 0x6F, 0x69, 0x66, 0, 0, 0, 64, 0, 0, 0, 32, 3, 0] = .ok ⟨64, 32, 3, 0⟩ := by decide

/-- VH2 and VH3: the byte order of a field. -/
theorem test_header_bytes : headerEncode ⟨0x7FFFFFFF#32, 1, 3, 1⟩ =
      .ok [0x71#8, 0x6F#8, 0x69#8, 0x66#8, 0x7F#8, 0xFF#8, 0xFF#8, 0xFF#8, 0, 0, 0, 1, 3, 1] ∧
    headerEncode ⟨256, 65536, 3, 0⟩ = .ok [0x71#8, 0x6F#8, 0x69#8, 0x66#8, 0, 0, 1, 0, 0, 1, 0, 0, 3, 0] := by decide

/-- VH5 to VH10: the order of the checks. -/
theorem test_header_checks : headerEncode ⟨0, 0, 5, 2⟩ = .raised .channels ∧
    headerEncode ⟨0, 1, 3, 9⟩ = .raised .colorspace ∧ headerEncode ⟨0x80000000#32, 1, 3, 0⟩ = .raised .width ∧
    headerEncode ⟨1, 0, 3, 0⟩ = .raised .height := by decide

/-- S7, VH15, VH13. -/
theorem test_header_rejects :
    headerDecode #v[0x51, 0x4F, 0x49, 0x46, 0, 0, 0, 1, 0, 0, 0, 1, 3, 0] = .raised .magic ∧
    headerDecode #v[0x71, 0x6F, 0x69, 0x67, 0, 0, 0, 0, 0, 0, 0, 0, 5, 2] = .raised .magic ∧
    headerDecode #v[0x71, 0x6F, 0x69, 0x66, 0x80, 0, 0, 0, 0, 0, 0, 1, 3, 0] = .raised .width := by decide

/-- R223 on a header of one pixel; VD5 on its sibling. -/
theorem test_step_header : seen (step (headerTaken [.byte 1#8]))
      (fun t => (t.width, t.height, t.channels, t.colorspace, t.npix)) = some (1, 1, 3, 1, 1) ∧
    seen (step (headerTaken [.byte 1#8])) (fun t => (t.dphase, t.hdrValid, t.bytecnt)) =
      some (.chunk 0, true, 14) ∧
    seen (step (headerTaken [.byte 2#8])) (fun t => (statusWord t, t.width, t.bytecnt)) =
      some (0x317#32, 0, 13) := by decide

/-- VD14 and VD17: the marker's last byte, and a chunk byte in its place. -/
theorem test_step_end_marker : seen (step (decoding (.endm 7) [.byte 1#8])) (fun t => (t.state, t.out)) =
      some (.done, [.doneMark]) ∧
    seen (step (decoding (.endm 7) [.byte 2#8])) (fun t => (t.state, t.errCode)) = some (.error, .endMarker) ∧
    seen (step (decoding (.endm 0) [.byte 0xC0#8])) (fun t => t.errCode) = some .endMarker := by decide

/-- VD2, VD13, VD12, VD15. -/
theorem test_step_eos : seen (step (decoding (.hdr 5) [.eos])) (fun t => t.errCode) = some .header ∧
    seen (step (decoding (.chunk 0) [.eos])) (fun t => t.errCode) = some .pixels ∧
    seen (step (decoding (.chunk 3) [.eos])) (fun t => t.errCode) = some .chunk ∧
    seen (step (decoding (.endm 3) [.eos])) (fun t => (t.errClass, t.errCode)) =
      some (.format, .endMarker) := by decide

/-! ### The encode side -/

/-- 2.2 of the vectors. -/
theorem test_hash : Machine.hash startPixel = 53 ∧ Machine.hash ⟨0, 255, 0, 255⟩ = 48 ∧
    Machine.hash ⟨255, 255, 255, 255⟩ = 38 ∧ Machine.hash ⟨1, 2, 3, 4⟩ = 14 ∧
    Machine.hash ⟨255, 0, 0, 255⟩ = 50 ∧ Machine.hash ⟨5, 5, 5, 128⟩ = 11 := by decide

/-- VF6, VF15, VF16, VF17, VF21, VF22, VF24. -/
theorem test_formatters_raise : fmtDiff 2 0 0 = .raised .range ∧ fmtLuma 0 32 0 = .raised .range ∧
    fmtLuma 9 0 0 = .raised .range ∧ fmtLuma 0 0 (-9) = .raised .range ∧ fmtRun 0 = .raised .range ∧
    fmtRun 63 = .raised .range ∧ fmtIndex 64 = .raised .range := by decide

/-- VC1, VC3, VC4, VC7, VC8, VC9: the bands at their edges. -/
theorem test_encode_pixel_bands :
    (encodePixel ⟨255, 0, 0, 255⟩ emptyCache startPixel).1 = .ok [0x7A#8] ∧
    (encodePixel startPixel emptyCache ⟨254, 254, 254, 255⟩).1 = .ok [0x40#8] ∧
    (encodePixel startPixel emptyCache ⟨2, 0, 0, 255⟩).1 = .ok [0xA0#8, 0xA8#8] ∧
    (encodePixel startPixel emptyCache ⟨38, 31, 24, 255⟩).1 = .ok [0xBF#8, 0xF1#8] ∧
    (encodePixel startPixel emptyCache ⟨39, 31, 31, 255⟩).1 = .ok [0xFE#8, 0x27#8, 0x1F#8, 0x1F#8] ∧
    (encodePixel startPixel emptyCache ⟨225, 224, 232, 255⟩).1 = .ok [0xFE#8, 0xE1#8, 0xE0#8, 0xE8#8] := by decide

/-- VC10, VC12, VC14. -/
theorem test_encode_pixel_others :
    (encodePixel startPixel emptyCache ⟨0, 0, 0, 254⟩).1 = .ok [0xFF#8, 0, 0, 0, 0xFE#8] ∧
    encodePixel startPixel emptyCache zeroPixel = (.ok [0#8], emptyCache) ∧
    encodePixel ⟨128, 0, 128, 255⟩ emptyCache ⟨0, 127, 0, 255⟩ =
      (.ok [0xFE#8, 0, 0x7F#8, 0], emptyCache.set 48 ⟨0, 127, 0, 255⟩) := by decide

/-- VE2 and VE4: the 62nd pixel of a run flushes it; the last pixel flushes what is held and ends the job. -/
theorem test_step_run_flush : seen (step (encoding 61 61 [.pixel startPixel])) (fun t => (t.out, t.run, t.encState)) =
      some ([.byte 0xFD#8], 0, .scanning) ∧
    seen (step (encoding 98 1 [.pixel startPixel])) (fun t => (t.out, t.run, t.encState)) = some ([], 2, .inRun) ∧
    seen (step (encoding 99 1 [.pixel startPixel])) (fun t => (t.out, t.state, t.bytecnt)) =
      some ([.byte 0xC1#8, .byte 0, .byte 0, .byte 0, .byte 0, .byte 0, .byte 0, .byte 0, .byte 1, .doneMark], .done,
        9) := by decide

/-- VE12: RUN 6 before the pixel that ends the run. -/
theorem test_step_run_ends : seen (step (encoding 6 6 [.pixel pixelA])) (fun t => (t.out, t.run, t.prev, t.cache[9])) =
    some ([.byte 0xC5#8, .byte 0xFE#8, .byte 0x0A#8, .byte 0x14#8, .byte 0x1E#8], 0, pixelA, pixelA) := by decide

/-- VX6: EOS with a held run; IN_RUN still reads 1. -/
theorem test_step_input_short : seen (step (encoding 2 1 [.eos])) (fun t => (t.out, statusWord t)) =
    some ([.abortMark .truncation .inputShort], 0x1B2B#32) := by decide

/-- R98, VE12. -/
theorem test_repeat : (expandRepeat 130).flatMap encode = [0xFD#8, 0xFD#8, 0xC5#8] ∧
    (expandRepeat 62).flatMap encode = [0xFD#8] ∧
    assemble [.repeatRun 130, .chunk (.rgb 10 20 30), .endLine] =
      .ok [0xFD#8, 0xFD#8, 0xC5#8, 0xFE#8, 10, 20, 30, 0, 0, 0, 0, 0, 0, 0, 1] := by decide

/-! ### The host's operations -/

/-- VR2. -/
theorem test_host_start : seen (move (.host (.write 4 0 0x0B)) State.reset) (fun t => (statusWord t, ctrlWord t)) =
    some (5#32, 0xA#32) := by decide

/-- VX1 and VX4: an encode START with an illegal configuration. -/
theorem test_host_start_fails :
    seen (move (.host (.write 4 0 1)) { State.reset with width := 1, height := 1, channels := 2 })
      (fun t => (t.out, statusWord t, t.bytecnt)) = some ([.abortMark .format .channels], 0x213#32, 0) ∧
    seen (move (.host (.write 4 0 1)) { State.reset with width := 1, height := 0x80000000#32, channels := 3 })
      (fun t => statusWord t) = some 0x513#32 := by decide

/-- VR3 and VR4: what a running job ignores. -/
theorem test_host_write_busy : seen (move (.host (.write 4 8 7)) (decoding (.chunk 0) [])) (fun t => t.width) = some 0 ∧
    seen (move (.host (.write 4 0 1)) { decoding (.chunk 0) [] with ctrlMode := .decode, ctrlIrqEn := true })
      (fun t => (t.ctrlMode, t.ctrlIrqEn, t.state, t.jobMode)) = some (.encode, false, .busy, .decode) := by decide

/-- VR5 and VR6. -/
theorem test_host_ack : irq { ended .done with ctrlIrqEn := true } = true ∧
    seen (move (.host (.write 4 0 0x0C)) { ended .done with ctrlIrqEn := true }) (fun t => (t.state, irq t)) =
      some (.idle, false) := by decide

/-- VR7: START wins over ACK. -/
theorem test_host_start_and_ack :
    seen (move (.host (.write 4 0 5)) { ended .error with width := 1, height := 1, channels := 3 })
      (fun t => (t.state, t.jobMode, t.npix)) = some (.busy, .encode, 1) := by decide

/-- VR9 and VR10. -/
theorem test_host_status : hostRead 4 (encoding 3 3 []) = 0x1009#32 ∧
    seen (move (.host (.write 4 4 0xFFFF)) State.reset) (fun t => decide (t = State.reset)) = some true ∧
    seen (move (.host (.write 4 0x28 0xFFFF)) State.reset) (fun t => decide (t = State.reset)) = some true := by decide

/-- VR11. -/
theorem test_host_malformed : refusedWith (move (.host (.read 2 0)) State.reset) .malformedAccess = true ∧
    refusedWith (move (.host (.write 4 2 0)) State.reset) .malformedAccess = true ∧
    refusedWith (move (.host (.read 4 0x100)) State.reset) .malformedAccess = true := by decide

/-- R258: bytes before DONE_MARK are the output; ABORT_MARK leaves none (spec/60_exceptions.md R276). -/
theorem test_valid_output : validOutput [.byte 1, .byte 2, .doneMark] = some [.byte 1, .byte 2] ∧
    validOutput [.byte 1, .abortMark .format .width] = none ∧ jobResult [.byte 1] = none ∧
    jobResult [.byte 1, .abortMark .format .width] = some ⟨[.byte 1], .abortMark .format .width⟩ := by decide

/-- R257: a planned move comes first; with none planned the block steps, and stutters where it has no step. -/
theorem test_step_order :
    seen (step { decoding (.chunk 0) [.byte 0xC0#8] with turns := [.host (.write 4 0 0), .block] })
      (fun t => (t.turns, t.inq)) = some ([.block], [.byte 0xC0#8]) ∧
    seen (step State.reset) (fun t => decide (t = State.reset)) = some true := by decide

/-! ### Witnesses: states and operands that meet all hypotheses of a statement, clause by clause, at the bounds -/

/-- A cache that holds `A` in its slot. -/
def cacheA : Cache := emptyCache.set 9 pixelA

theorem witness_DecodeOfEncodeIsTheChunk :
    (Instr.diff (-2) 1 1).wellFormed = true ∧ (Instr.luma (-40) (-32) (-25)).wellFormed = true ∧
    (Instr.luma 38 31 23).wellFormed = true ∧ (Instr.run 1).wellFormed = true ∧ (Instr.run 62).wellFormed = true ∧
    (Instr.index 63).wellFormed = true ∧ (Instr.rgb 0 0 255).wellFormed = true ∧
    (Instr.rgba 0 0 0 255).wellFormed = true := by decide

theorem witness_EncodeOfDecodeIsTheBytes : decode [0xFD#8, 7] = .chunk (.run 62) [7] ∧
    decode [0x80#8, 0] = .chunk (.luma (-40) (-32) (-40)) [] := by decide

theorem witness_OnlyMissingBytesAreRejected : ([0, 0] : List Byte).length + 1 < chunkLength 0xFE#8 ∧
    chunkLength 0xFE#8 ≤ ([0, 0, 0] : List Byte).length + 1 ∧ ([] : List Byte).length + 1 < chunkLength 0x80#8 ∧
    chunkLength 0xC0#8 ≤ ([] : List Byte).length + 1 := by decide

theorem witness_RepeatIsRunsOfTheCount : 1 ≤ 1 ∧ 62 % 62 = 0 ∧ 1 ≤ 62 ∧ 63 % 62 ≠ 0 ∧ 1 ≤ 63 := by decide

theorem witness_DiffAddsDeltas : 0x40 ≤ (0x40#8).toNat ∧ (0x40#8).toNat ≤ 0x7F ∧ 0x40 ≤ (0x7F#8).toNat ∧
    (0x7F#8).toNat ≤ 0x7F := by decide

theorem witness_LumaAddsDeltas : 0x80 ≤ (0x80#8).toNat ∧ (0x80#8).toNat ≤ 0xBF ∧ 0x80 ≤ (0xBF#8).toNat ∧
    (0xBF#8).toNat ≤ 0xBF := by decide

theorem witness_RunRepeatsPrevious : (0xC0 ≤ (0xC0#8).toNat ∧ (0xC0#8).toNat ≤ 0xFD) ∧
    (0xC0 ≤ (0xFD#8).toNat ∧ (0xFD#8).toNat ≤ 0xFD) ∧
    (decoding (.chunk 0) []).pixcnt.toNat + 2 ≤ (decoding (.chunk 0) []).npix.toNat := by decide

theorem witness_RunOvershootIsAnError :
    (decoding (.chunk 0) []).npix.toNat < (decoding (.chunk 0) []).pixcnt.toNat + 3 := by decide

theorem witness_NonRunEmitsOnePixel : (Instr.index 0).kind ≠ .run ∧ (Instr.rgb 0 0 0).kind ≠ .run ∧
    (Instr.rgba 0 0 0 0).kind ≠ .run ∧ (Instr.diff 0 0 0).kind ≠ .run ∧ (Instr.luma 0 0 0).kind ≠ .run ∧
    (decoding (.chunk 0) []).pixcnt.toNat + 2 ≤ (decoding (.chunk 0) []).npix.toNat := by decide

theorem witness_ChunkFrame : ∃ t, exec (.rgb 1 2 3) State.reset = .next t := ⟨_, rfl⟩

theorem witness_ChunkFrame_run : ∃ t, exec (.run 3) (decoding (.chunk 0) []) = .next t ∧ t.state = .error :=
  ⟨_, rfl, rfl⟩

theorem witness_ChunkCacheFrame : ∃ t, exec (.diff 1 1 1) State.reset = .next t ∧
    cacheLookup t.cache 4 = t.prev ∧ cacheLookup t.cache 5 = zeroPixel := ⟨_, rfl, by decide, by decide⟩

/-- The last byte of an RGBA, and a chunk of one byte. -/
theorem witness_StepRunsTheDecodedChunk :
    (fun s : State => (s.turns = [] ∧ ([] : List Turn) = []) ∧ s.state = .busy ∧ s.jobMode = .decode ∧
      s.dphase = .chunk 4 ∧ s.inq = .byte 0x28#8 :: [] ∧ s.out.length + 62 ≤ Config.outDepth ∧
      chunkLength (s.opbuf.set 4 0x28#8)[0] ≤ 4 + 1 ∧
      decode (s.opbuf.set 4 0x28#8).toList = .chunk (.rgba 10 20 30 40) [])
    (State.reset.withFetchWord 40 0x281E140AFF) := by
  refine ⟨⟨rfl, rfl⟩, rfl, rfl, rfl, rfl, by decide, by decide, by decide⟩

theorem witness_StepRunsTheDecodedChunk_planned :
    (fun s : State => s.turns = .block :: [] ∧ s.state = .busy ∧ s.jobMode = .decode ∧
      s.dphase = .chunk 0 ∧ s.inq = .byte 0xC1#8 :: [] ∧ s.out.length + 62 ≤ Config.outDepth ∧
      chunkLength (s.opbuf.set 0 0xC1#8)[0] ≤ 0 + 1 ∧
      decode (s.opbuf.set 0 0xC1#8).toList = .chunk (.run 2) [0, 0, 0, 0])
    { decoding (.chunk 0) [.byte 0xC1#8] with turns := [.block] } := by
  refine ⟨rfl, rfl, rfl, rfl, rfl, by decide, by decide, by decide⟩

/-- The first byte of a LUMA, and the fourth of an RGBA. -/
theorem witness_EarlierChunkBytesOnlyBuffer :
    (fun s : State => s.turns = [] ∧ s.state = .busy ∧ s.jobMode = .decode ∧ s.dphase = .chunk 0 ∧
      s.inq = .byte 0x80#8 :: [] ∧ s.out.length + 62 ≤ Config.outDepth ∧
      0 + 1 < chunkLength (s.opbuf.set 0 0x80#8)[0]) (decoding (.chunk 0) [.byte 0x80#8]) ∧
    (fun s : State => s.turns = [] ∧ s.state = .busy ∧ s.jobMode = .decode ∧ s.dphase = .chunk 3 ∧
      s.inq = .byte 9#8 :: [] ∧ s.out.length + 62 ≤ Config.outDepth ∧
      3 + 1 < chunkLength (s.opbuf.set 3 9#8)[0])
      { decoding (.chunk 3) [.byte 9#8] with opbuf := #v[0xFF, 0, 0, 0, 0] } := by decide

theorem witness_HeaderBytesAreCollected :
    (fun s : State => s.turns = [] ∧ s.state = .busy ∧ s.jobMode = .decode ∧ s.dphase = .hdr 0 ∧
      s.inq = .byte 0x71#8 :: [] ∧ s.out.length < Config.outDepth ∧ (0 : Fin 14).val < 13)
      (decoding (.hdr 0) [.byte 0x71#8]) ∧
    (fun s : State => s.turns = [] ∧ s.state = .busy ∧ s.jobMode = .decode ∧ s.dphase = .hdr 12 ∧
      s.inq = .byte 3#8 :: [] ∧ s.out.length < Config.outDepth ∧ (12 : Fin 14).val < 13)
      (decoding (.hdr 12) [.byte 3#8]) := by decide

/-- Colorspace 1 is accepted, 2 is not (R110). -/
theorem witness_FourteenthByteChecksHeader :
    (fun s : State => s.turns = [] ∧ s.state = .busy ∧ s.jobMode = .decode ∧ s.dphase = .hdr 13 ∧
      s.inq = .byte 1#8 :: [] ∧ s.out.length < Config.outDepth ∧
      headerDecode (s.hdrbuf.set 13 1#8) = .ok ⟨1, 1, 3, 1⟩) (headerTaken [.byte 1#8]) ∧
    (fun s : State => s.turns = [] ∧ s.state = .busy ∧ s.jobMode = .decode ∧ s.dphase = .hdr 13 ∧
      s.inq = .byte 2#8 :: [] ∧ s.out.length < Config.outDepth ∧
      headerDecode (s.hdrbuf.set 13 2#8) = .raised .colorspace) (headerTaken [.byte 2#8]) := by decide

theorem witness_EndMarkerIsChecked :
    (fun s : State => s.turns = [] ∧ s.state = .busy ∧ s.jobMode = .decode ∧ s.dphase = .endm 7 ∧
      s.inq = .byte 0#8 :: [] ∧ s.out.length < Config.outDepth ∧
      (0#8 : Byte) ≠ (if (7 : Fin 8).val = 7 then 1#8 else 0#8)) (decoding (.endm 7) [.byte 0#8]) ∧
    (fun s : State => s.turns = [] ∧ s.state = .busy ∧ s.jobMode = .decode ∧ s.dphase = .endm 6 ∧
      s.inq = .byte 0#8 :: [] ∧ s.out.length < Config.outDepth ∧ (6 : Fin 8).val + 1 < 8)
      (decoding (.endm 6) [.byte 0#8]) ∧
    (fun s : State => s.turns = [] ∧ s.state = .busy ∧ s.jobMode = .decode ∧ s.dphase = .endm 7 ∧
      s.inq = .byte 1#8 :: [] ∧ s.out.length < Config.outDepth ∧ (7 : Fin 8).val = 7)
      (decoding (.endm 7) [.byte 1#8]) := by decide

theorem witness_EosEndsTheDecodeJob : ∀ ph ∈ [DPhase.hdr 0, .hdr 13, .chunk 0, .chunk 1, .chunk 4, .endm 0, .endm 7],
    (fun s : State => s.turns = [] ∧ s.state = .busy ∧ s.jobMode = .decode ∧ s.inq = .eos :: [] ∧
      s.out.length + roomNeeded s ≤ Config.outDepth ∧ s.dphase = ph) (decoding ph [.eos]) := by decide

theorem witness_HeaderEncodeWritesFourteenBytes :
    headerCheck ⟨1, 0x7FFFFFFF#32, 4, 1⟩ = .ok ⟨1, 0x7FFFFFFF#32, 4, 1⟩ ∧
    headerCheck ⟨0x80000000#32, 1, 4, 1⟩ = .raised .width := by decide

theorem witness_WrongMagicIsAnError : (fun b : Vector Byte 14 =>
    ¬(b[0] = 0x71#8 ∧ b[1] = 0x6F#8 ∧ b[2] = 0x69#8 ∧ b[3] = 0x66#8))
    #v[0x71, 0x6F, 0x69, 0x67, 0, 0, 0, 0, 0, 0, 0, 0, 5, 2] := by decide

theorem witness_HeaderRoundTrip : headerCheck ⟨1, 0x7FFFFFFF#32, 3, 0⟩ = .ok ⟨1, 0x7FFFFFFF#32, 3, 0⟩ ∧
    headerDecode #v[0x71, 0x6F, 0x69, 0x66, 0, 0, 0, 64, 0, 0, 0, 32, 3, 0] = .ok ⟨64, 32, 3, 0⟩ := by decide

/-- Two pixels that differ in the top two bits of a channel only. -/
theorem witness_HashIsTheWeightedSum : (fun p q : Pixel => p ≠ q ∧ p.r.toNat % 64 = q.r.toNat % 64 ∧
    p.g.toNat % 64 = q.g.toNat % 64 ∧ p.b.toNat % 64 = q.b.toNat % 64 ∧ p.a.toNat % 64 = q.a.toNat % 64)
    ⟨1, 2, 3, 4⟩ ⟨65, 130, 195, 4⟩ := by decide

theorem witness_FormattersWriteOrRaise : ((-1 : Int) < 0 ∨ (63 : Int) < -1) ∧ ((64 : Int) < 0 ∨ (63 : Int) < 64) ∧
    ((0 : Int) < 1 ∨ (62 : Int) < 0) ∧ ((63 : Int) < 1 ∨ (62 : Int) < 63) := by decide

theorem witness_CacheHitIsIndex : cacheLookup cacheA (Machine.hash pixelA) = pixelA := by decide

/-- A DIFF at the edge of its band; a LUMA just past it. -/
theorem witness_SmallDeltasAreDiffOrLuma :
    (cacheLookup emptyCache (Machine.hash ⟨1, 1, 1, 255⟩) ≠ ⟨1, 1, 1, 255⟩ ∧ (255 : Byte) = startPixel.a ∧
      (1 : Int) = channelDelta 1 startPixel.r ∧ (Instr.diff 1 1 1).wellFormed = true) ∧
    (cacheLookup emptyCache (Machine.hash ⟨2, 0, 0, 255⟩) ≠ ⟨2, 0, 0, 255⟩ ∧
      (2 : Int) = channelDelta 2 startPixel.r ∧ (0 : Int) = channelDelta 0 startPixel.g ∧
      (Instr.diff 2 0 0).wellFormed = false ∧ (Instr.luma 2 0 0).wellFormed = true) := by decide

theorem witness_OtherPixelsAreRgbOrRgba :
    (cacheLookup emptyCache (Machine.hash ⟨0, 0, 0, 254⟩) ≠ ⟨0, 0, 0, 254⟩ ∧ (254 : Byte) ≠ startPixel.a) ∧
    (cacheLookup emptyCache (Machine.hash ⟨32, 32, 32, 255⟩) ≠ ⟨32, 32, 32, 255⟩ ∧ (255 : Byte) = startPixel.a ∧
      (32 : Int) = channelDelta 32 startPixel.r ∧ (Instr.diff 32 32 32).wellFormed = false ∧
      (Instr.luma 32 32 32).wellFormed = false) := by decide

/-- The hypotheses on an encode job, with the run and the count of pixels at their bounds. -/
theorem witness_EqualPixelRunsOn : ∀ c ∈ [((0 : Count), (0 : BitVec 6)), (60, 60), (61, 61), (98, 61), (99, 61), (99, 0)],
    (fun s : State => s.turns = [] ∧ s.state = .busy ∧ s.jobMode = .encode ∧ s.pixcnt.toNat < s.npix.toNat ∧
      s.inq = .pixel s.prev :: [] ∧ s.out.length + 15 ≤ Config.outDepth ∧ s.run.toNat ≤ 61)
      (encoding c.1 c.2 [.pixel startPixel]) := by
  intro c hc
  simp only [List.mem_cons, List.not_mem_nil, or_false] at hc
  rcases hc with rfl | rfl | rfl | rfl | rfl | rfl <;> decide

theorem witness_EqualPixelRunsOn_clauses :
    ((encoding 60 60 []).run.toNat ≤ 60 ∧ (encoding 60 60 []).pixcnt ≠ (encoding 60 60 []).npix - 1) ∧
    ((encoding 98 61 []).run.toNat = 61 ∧ (encoding 98 61 []).pixcnt ≠ (encoding 98 61 []).npix - 1) ∧
    ((encoding 99 61 []).pixcnt = (encoding 99 61 []).npix - 1) := by decide

theorem witness_DifferingPixelEndsTheRun : ∀ c ∈ [((0 : Count), (0 : BitVec 6)), (98, 61), (99, 61), (99, 0)],
    (fun s : State => s.turns = [] ∧ s.state = .busy ∧ s.jobMode = .encode ∧ s.pixcnt.toNat < s.npix.toNat ∧
      s.inq = .pixel pixelA :: [] ∧ s.out.length + 15 ≤ Config.outDepth ∧ s.run.toNat ≤ 61 ∧ pixelA ≠ s.prev ∧
      encodePixel s.prev s.cache pixelA = (.ok [0xFE#8, 10, 20, 30], cacheA))
      (encoding c.1 c.2 [.pixel pixelA]) := by
  intro c hc
  simp only [List.mem_cons, List.not_mem_nil, or_false] at hc
  rcases hc with rfl | rfl | rfl | rfl <;> decide

theorem witness_DifferingPixelEndsTheRun_clauses :
    (encoding 98 61 []).pixcnt ≠ (encoding 98 61 []).npix - 1 ∧
    (encoding 99 61 []).pixcnt = (encoding 99 61 []).npix - 1 := by decide

theorem witness_EosEndsTheEncodeJob :
    (fun s : State => s.turns = [] ∧ s.state = .busy ∧ s.jobMode = .encode ∧ s.pixcnt.toNat < s.npix.toNat ∧
      s.inq = .eos :: [] ∧ s.out.length + 15 ≤ Config.outDepth) (encoding 99 61 [.eos]) := by decide

/-- Each of the four reasons, the third one at one place short of its room. -/
theorem witness_NoStepUnlessEnabled : State.reset.state ≠ .busy ∧ (decoding (.chunk 0) []).inq = [] ∧
    (fun s : State => s.jobMode = .encode ∧ s.npix.toNat ≤ s.pixcnt.toNat) (encoding 100 0 [.pixel startPixel]) := by
  decide

theorem witness_NoStepUnlessEnabled_room :
    (fun s : State => Config.outDepth < s.out.length + roomNeeded s)
      { decoding (.hdr 0) [.byte 0#8] with out := List.replicate Config.outDepth .doneMark } := by
  show Config.outDepth < (List.replicate Config.outDepth OutToken.doneMark).length + 1
  rw [List.length_replicate]
  exact Nat.lt_succ_self _

/-- The largest push: RUN, RGBA, end marker and DONE_MARK fill the room of 15. -/
theorem witness_BlockStepFitsItsRoom : ∃ t, blockStep (encoding 99 61 [.pixel ⟨10, 20, 30, 40⟩]) = .next t ∧
    t.out.length = 15 := ⟨_, rfl, by decide⟩

theorem witness_BlockStepFrame : (∃ t, blockStep (headerTaken [.byte 1#8]) = .next t ∧ t.dphase = .chunk 0) ∧
    ∃ t, blockStep State.reset = .next t := by
  refine ⟨⟨_, rfl, rfl⟩, ⟨_, rfl⟩⟩

theorem witness_ErrorsArePrecise : (headerTaken [.byte 2#8]).state = .busy ∧
    ∃ t, blockStep (headerTaken [.byte 2#8]) = .next t ∧ t.state = .error := by
  refine ⟨rfl, ⟨_, rfl, rfl⟩⟩

theorem witness_HostMovesRaiseOnlyAtStart : ∃ t, hostMove (.write 4 0 1) State.reset = .next t ∧
    State.reset.state ≠ .error ∧ t.state = .error := ⟨_, rfl, by decide, rfl⟩

theorem witness_ErrorIsLeftOnlyByTheHost :
    (∃ t, step { ended .error with turns := [.host (.write 4 0 4)] } = .next t ∧ t.state ≠ .error) ∧
    (∃ t, step { ended .error with turns := [.host (.write 4 0 3)] } = .next t ∧ t.state ≠ .error) ∧
    (∃ t, step { ended .error with turns := [.host .reset] } = .next t ∧ t.state ≠ .error) := by
  refine ⟨⟨_, rfl, by decide⟩, ⟨_, rfl, by decide⟩, ⟨_, rfl, by decide⟩⟩

theorem witness_DecodeStartInitialises : (3#32).getLsbD 0 = true ∧ (3#32).getLsbD 1 = true ∧
    State.reset.state ≠ .busy ∧ (ended .error).state ≠ .busy := by decide

theorem witness_EncodeStartPushesTheHeader : (1#32).getLsbD 0 = true ∧ (1#32).getLsbD 1 = false ∧
    (ended .done).state ≠ .busy ∧ headerEncode ⟨0, 0, 0, 0⟩ = .raised .channels ∧
    headerEncode ⟨1, 1, 3, 0⟩ = .ok [0x71#8, 0x6F#8, 0x69#8, 0x66#8, 0, 0, 0, 1, 0, 0, 0, 1, 3, 0] := by decide

/-- Two states that an earlier job left apart. -/
theorem witness_StartForgetsTheEarlierJob : (fun s t : State => (1#32).getLsbD 0 = true ∧ s.state ≠ .busy ∧
    t.state ≠ .busy ∧ s.width = t.width ∧ s.height = t.height ∧ s.channels = t.channels ∧
    s.colorspace = t.colorspace ∧ s.turns = t.turns ∧ s.reads = t.reads ∧ s ≠ t)
    (ended .idle) { ended .error with cache := cacheA, run := 5 } := by decide

/-- ACK in each state, with START ignored while BUSY; and writes without ACK, VR4's among them. -/
theorem witness_AckReturnsToIdle : ((4#32).getLsbD 0 = false ∧ (4#32).getLsbD 2 = true) ∧
    ((ended .done).state = .done ∨ (ended .done).state = .error) ∧
    ((ended .error).state = .done ∨ (ended .error).state = .error) ∧
    ((ended .idle).state = .idle ∨ (ended .idle).state = .busy) ∧
    ((decoding (.hdr 0) []).state = .busy ∧ (5#32).getLsbD 2 = true) ∧
    ((decoding (.hdr 0) []).state = .busy ∧ (1#32).getLsbD 2 = false) ∧
    ((10#32).getLsbD 0 = false ∧ (10#32).getLsbD 2 = false) := by decide

theorem witness_ConfigurationWrites : ∀ off ∈ [0x04, 0x08, 0x0C, 0x10, 0x14, 0x28, 0xFC],
    off % 4 = 0 ∧ off < 0x100 ∧ off ≠ 0 := by decide

theorem witness_RegisterReads : ∀ off ∈ [0x00, 0x04, 0x08, 0x0C, 0x10, 0x14, 0x18, 0x1C, 0x20, 0x24, 0x28, 0xFC],
    off % 4 = 0 ∧ off < 0x100 := by decide

theorem witness_MalformedAccessIsRefused : (2 ≠ 4 ∨ 0 % 4 ≠ 0 ∨ 0x100 ≤ 0) ∧ (4 ≠ 4 ∨ 2 % 4 ≠ 0 ∨ 0x100 ≤ 2) ∧
    (4 ≠ 4 ∨ 0x100 % 4 ≠ 0 ∨ 0x100 ≤ 0x100) := by decide

theorem witness_PushAppendsOrIsRefused :
    (fun s : State => s.state = .busy ∧ s.inq.length < Config.inDepth ∧ s.jobMode = .decode) (decoding (.hdr 0) []) ∧
    (fun s : State => s.state = .busy ∧ s.inq.length < Config.inDepth ∧ s.jobMode = .encode) (encoding 0 0 []) ∧
    State.reset.state ≠ .busy := by decide

theorem witness_PopTakesTheOldest : (fun s : State => s.out = .doneMark :: [])
    { ended .done with out := [.doneMark] } ∧ State.reset.out = [] := by decide

theorem witness_HiddenStateIsNotReadable : sameButHidden State.reset { State.reset with run := 5, cache := cacheA } ∧
    State.reset ≠ { State.reset with run := 5, cache := cacheA } := by
  refine ⟨rfl, by decide⟩

theorem witness_IrqLine : (fun s : State => s.ctrlIrqEn = true ∧ (s.state = .done ∨ s.state = .error))
    { ended .error with ctrlIrqEn := true } ∧
    ((4#32).getLsbD 0 = false ∧ (4#32).getLsbD 2 = true) ∧ (4#32).getLsbD 3 = false ∧
    ((11#32).getLsbD 0 = true ∧ (11#32).getLsbD 1 = true ∧ (ended .error).state ≠ .busy) := by decide

/-- A decode job with a chunk still to come, which the RUN in IN completes. -/
theorem witness_Inv_decoding : Inv (decoding (.chunk 0) [.byte 0xC1#8]) := by
  constructor <;> first | decide | simp [decoding, State.reset, phaseHolds]

/-- An encode job one pixel before its end, with the longest held run. -/
theorem witness_Inv_encoding : Inv (encoding 99 61 [.pixel pixelA]) := by
  constructor <;> first | decide | simp [encoding, State.reset]

theorem witness_ResetMeetsTheInvariant : 0 % 4 = 0 ∧ 0 < 0x100 ∧ 0xFC % 4 = 0 ∧ 0xFC < 0x100 := by decide

theorem witness_EveryStepKeepsTheInvariant : Inv (decoding (.chunk 0) [.byte 0xC1#8]) ∧
    ∃ t, step (decoding (.chunk 0) [.byte 0xC1#8]) = .next t ∧ t.dphase = .endm 0 :=
  ⟨witness_Inv_decoding, _, rfl, rfl⟩

theorem witness_BlockNeverFaultsUnderTheInvariant : Inv (decoding (.chunk 0) [.byte 0xC1#8]) := witness_Inv_decoding

theorem witness_ImageRoundTrip : headerCheck ⟨1, 1, 3, 0⟩ = .ok ⟨1, 1, 3, 0⟩ ∧
    [startPixel].length = (1#32).toNat * (1#32).toNat ∧ State.reset.state ≠ .busy ∧ (ended .error).state ≠ .busy := by
  decide

end Sys2Proof.Tests
end

section
/-! PROOFS. What the host sees of the state (spec/10_state.md): the fields of the STATUS word (R36), and what a register
read depends on (R44). -/

namespace Sys2Proof.Machine

theorem hostRead_status (s : State) : hostRead 0x04 s = statusWord s := rfl

/-! The fields of STATUS from bit 0 up: each is the part of the concatenation `statusWord` at its bits. The widths are
kept as sums (`-Nat.reduceAdd`), since the lemmas about `++` see a concatenation by the sum of its parts' widths. -/

theorem statusWord_state (s : State) : (statusWord s).extractLsb 1 0 = stateBits s.state :=
  BitVec.extractLsb'_append_eq_right

theorem statusWord_jobMode (s : State) : (statusWord s).getLsbD 2 = (modeBit s.jobMode).getLsbD 0 := by
  simp only [statusWord, BitVec.getLsbD_append]
  simp

theorem statusWord_inRun (s : State) : (statusWord s).getLsbD 3 = inRunBit s := by
  simp only [statusWord, BitVec.getLsbD_append]
  simp

theorem statusWord_errClass (s : State) : (statusWord s).extractLsb 5 4 = classBits s.errClass := by
  simp [statusWord, BitVec.extractLsb, BitVec.extractLsb'_append_eq_ite, -Nat.reduceAdd]

theorem statusWord_reserved_low (s : State) : (statusWord s).extractLsb 7 6 = 0#2 := by
  simp [statusWord, BitVec.extractLsb, BitVec.extractLsb'_append_eq_ite, -Nat.reduceAdd]

theorem statusWord_errCode (s : State) : (statusWord s).extractLsb 11 8 = codeBits s.errCode := by
  simp [statusWord, BitVec.extractLsb, BitVec.extractLsb'_append_eq_ite, -Nat.reduceAdd]

theorem statusWord_hdrValid (s : State) : (statusWord s).getLsbD 12 = s.hdrValid := by
  simp only [statusWord, BitVec.getLsbD_append]
  simp

theorem statusWord_reserved_high (s : State) : (statusWord s).extractLsb 31 13 = 0#19 := by
  simp [statusWord, BitVec.extractLsb, BitVec.extractLsb'_append_eq_ite, -Nat.reduceAdd]

/-- The JOB_MODE bit is set for a decode job. -/
theorem modeBit_getLsbD (m : JobMode) : (modeBit m).getLsbD 0 = decide (m = .decode) := by
  cases m <;> rfl

/-- None of the words and fields that a register read returns is built from a hidden register (R44). -/
theorem sameButHidden.readable_eq {s t : State} (h : sameButHidden s t) :
    ctrlWord t = ctrlWord s ∧ statusWord t = statusWord s ∧ t.width = s.width ∧ t.height = s.height ∧
    t.channels = s.channels ∧ t.colorspace = s.colorspace ∧ t.pixcnt = s.pixcnt ∧ t.bytecnt = s.bytecnt := by
  rw [h]
  exact ⟨rfl, rfl, rfl, rfl, rfl, rfl, rfl, rfl⟩

/-- Settles O49: STATUS reads the STATUS word, and each clause is the lemma of its field. -/
theorem statusFields : Obligations.StatusFields := by
  intro s
  refine ⟨statusWord s, hostRead_status s, ?state, ?jobMode, statusWord_inRun s, ?errClass, statusWord_reserved_low s,
    statusWord_errCode s, statusWord_hdrValid s, statusWord_reserved_high s⟩
  case state =>
    rw [statusWord_state]
    cases s.state <;> rfl
  case jobMode => rw [statusWord_jobMode, modeBit_getLsbD]
  case errClass =>
    rw [statusWord_errClass]
    cases s.errClass <;> rfl

/-- Settles O54: a register read returns one of the words and fields that the hidden registers leave alone, or 0. -/
theorem hiddenStateIsNotReadable : Obligations.HiddenStateIsNotReadable := by
  intro s t h off
  obtain ⟨hctrl, hstatus, hwidth, hheight, hchannels, hcolorspace, hpixcnt, hbytecnt⟩ := h.readable_eq
  simp only [hostRead, hctrl, hstatus, hwidth, hheight, hchannels, hcolorspace, hpixcnt, hbytecnt]

end Sys2Proof.Machine
end

section
/-! PROOFS. What of the register file the host can reach (spec/20_memory.md): which accesses R65 allows, and what a
register access answers when it is not one of them. -/

namespace Sys2Proof.Machine

/-- R65 read from its other side: each of the three ways to be malformed, and no other, makes an access illegal. -/
theorem legalAccess_eq_false_iff {size off : Nat} :
    legalAccess size off = false ↔ size ≠ 4 ∨ off % 4 ≠ 0 ∨ 0x100 ≤ off := by
  rw [legalAccess, decide_eq_false_iff_not, not_and_or, not_and_or, not_lt]

theorem hostMove_read_of_illegal {size off : Nat} (s : State) (h : legalAccess size off = false) :
    hostMove (.read size off) s = .refused .malformedAccess := by
  simp [hostMove, h]

theorem hostMove_write_of_illegal {size off : Nat} (v : Word32) (s : State) (h : legalAccess size off = false) :
    hostMove (.write size off v) s = .refused .malformedAccess := by
  simp [hostMove, h]

/-- Settles O51: a malformed access is illegal, and the host's move refuses an illegal access before it looks at the
state. -/
theorem malformedAccessIsRefused : Obligations.MalformedAccessIsRefused := by
  intro size off v s malformed
  have illegal : legalAccess size off = false := legalAccess_eq_false_iff.mpr malformed
  rw [move_host, move_host]
  exact ⟨hostMove_read_of_illegal _ illegal, hostMove_write_of_illegal v _ illegal⟩

end Sys2Proof.Machine
end

section
/-! PROOFS. What the first byte of a chunk fixes (spec/30_encoding.md R84): each kind's test as a range of the byte's
value, and the kind and the length by those ranges. -/

namespace Sys2Proof

/-- The two-bit tag of a first byte is its value divided by 64, so each tag is one quarter of the 256 values. -/
theorem tag_eq_iff (b0 : Byte) (n : Nat) : b0.extractLsb 7 6 = BitVec.ofNat 2 n ↔ b0.toNat / 64 = n % 4 := by
  have fits : b0.toNat / 64 < 4 := by omega
  rw [← BitVec.toNat_inj, BitVec.extractLsb_toNat, BitVec.toNat_ofNat, Nat.shiftRight_eq_div_pow]
  exact iff_of_eq (congrArg (· = n % 4) (Nat.mod_eq_of_lt fits))

/-- The kind by the ranges of R84, row by row: where the rows before a tag's own have failed, its test is the upper bound
of its quarter. -/
theorem kindOf_eq_by_range (b0 : Byte) :
    kindOf b0 = if b0.toNat = 0xFE then .rgb else if b0.toNat = 0xFF then .rgba
      else if b0.toNat ≤ 0x3F then .index else if b0.toNat ≤ 0x7F then .diff
      else if b0.toNat ≤ 0xBF then .luma else .run := by
  rw [kindOf]
  refine ite_congr ?rgb (fun _ => rfl) fun _ => ite_congr ?rgba (fun _ => rfl) fun _ =>
    ite_congr ?index (fun _ => rfl) fun notIndex => ite_congr ?diff (fun _ => rfl) fun notDiff =>
    ite_congr ?luma (fun _ => rfl) fun _ => rfl
  case rgb | rgba => exact propext BitVec.toNat_inj.symm
  case index | diff | luma =>
    rw [tag_eq_iff]
    apply propext
    omega

/-- The length by the ranges of R84: INDEX and DIFF, the lower half of the values, are both one byte long. -/
theorem chunkLength_eq_by_range (b0 : Byte) :
    chunkLength b0 = if b0.toNat = 0xFE then 4 else if b0.toNat = 0xFF then 5
      else if b0.toNat ≤ 0x7F then 1 else if b0.toNat ≤ 0xBF then 2 else 1 := by
  rw [chunkLength, kindOf_eq_by_range]
  simp only [apply_ite kindLength]
  by_cases isIndex : b0.toNat ≤ 0x3F
  · have lowerHalf : b0.toNat ≤ 0x7F := by omega
    simp only [isIndex, lowerHalf, if_true, kindLength]
  · simp only [isIndex, if_false, kindLength]

/-- Settles O1: the kind and the length, each by the ranges of the first byte. -/
theorem firstByteFixesKindAndLength : Obligations.FirstByteFixesKindAndLength :=
  fun b0 => ⟨kindOf_eq_by_range b0, chunkLength_eq_by_range b0⟩

end Sys2Proof
end

section
/-! PROOFS. The header codec (spec/40_header.md): the check as tests on numbers (R110), the 14 bytes that HeaderEncode
writes (R111), the magic test (R113), and HeaderDecode as the inverse of HeaderEncode (R114). -/

namespace Sys2Proof.Machine

/-- A byte is neither of two constants when its value is neither of theirs. -/
theorem byte_ne_and_ne_iff (b x y : Byte) : (b ≠ x ∧ b ≠ y) ↔ ¬(b.toNat = x.toNat ∨ b.toNat = y.toNat) := by
  rw [BitVec.toNat_inj, BitVec.toNat_inj, not_or]

theorem legalDimension_eq_false_iff (v : Word32) :
    legalDimension v = false ↔ ¬(1 ≤ v.toNat ∧ v.toNat ≤ 2147483647) :=
  decide_eq_false_iff_not

/-- Settles O23: the check's four tests, each rewritten as the test on the field's number. -/
theorem headerCheckOrder : Obligations.HeaderCheckOrder := by
  intro w h c s
  refine ite_congr (propext ?channels) (fun _ => rfl) fun _ => ite_congr (propext ?colorspace) (fun _ => rfl) fun _ =>
    ite_congr (propext ?width) (fun _ => rfl) fun _ => ite_congr (propext ?height) (fun _ => rfl) fun _ => rfl
  case channels => exact byte_ne_and_ne_iff c 3 4
  case colorspace => exact byte_ne_and_ne_iff s 0 1
  case width => exact legalDimension_eq_false_iff w
  case height => exact legalDimension_eq_false_iff h

theorem headerEncode_of_raised {hd : Header} {e : ErrCode} (h : headerCheck hd = .raised e) :
    headerEncode hd = .raised e := by
  simp [headerEncode, h]

theorem headerEncode_of_ok {hd : Header} (h : headerCheck hd = .ok hd) : headerEncode hd = .ok (headerBytes hd) := by
  simp [headerEncode, h]

/-- Settles O24: the check's error is passed on, and a legal header's bytes are its layout with both dimensions as
quotients. -/
theorem headerEncodeWritesFourteenBytes : Obligations.HeaderEncodeWritesFourteenBytes := by
  intro w h c s
  refine ⟨fun _ => headerEncode_of_raised, fun legal => ?_⟩
  rw [headerEncode_of_ok legal, headerBytes, bigEndianBytes_eq, bigEndianBytes_eq]
  rfl

/-- The header that 14 bytes spell, by the layout of R81; the magic is not looked at. -/
def headerFields (b : Vector Byte 14) : Header :=
  ⟨bigEndianWord b[4] b[5] b[6] b[7], bigEndianWord b[8] b[9] b[10] b[11], b[12], b[13]⟩

theorem headerDecode_of_magic {b : Vector Byte 14} (magic : [b[0], b[1], b[2], b[3]] = magicBytes) :
    headerDecode b = headerCheck (headerFields b) :=
  if_neg (not_not_intro magic)

theorem headerDecode_of_not_magic {b : Vector Byte 14} (notMagic : [b[0], b[1], b[2], b[3]] ≠ magicBytes) :
    headerDecode b = .raised .magic :=
  if_pos notMagic

/-- Settles O25: the magic is four bytes, so a mismatch in one of them is a mismatch of the whole. -/
theorem wrongMagicIsAnError : Obligations.WrongMagicIsAnError := by
  intro b mismatch
  apply headerDecode_of_not_magic
  simpa [magicBytes] using mismatch

/-- The bytes of a header as the vector that HeaderDecode takes. -/
def headerVector (hd : Header) : Vector Byte 14 := ⟨(headerBytes hd).toArray, rfl⟩

theorem toList_headerVector (hd : Header) : (headerVector hd).toList = headerBytes hd := rfl

theorem headerFields_headerVector (hd : Header) : headerFields (headerVector hd) = hd := by
  obtain ⟨width, height, channels, colorspace⟩ := hd
  exact congrArg₂ (fun w h => Header.mk w h channels colorspace)
    (bigEndianWord_of_fields width) (bigEndianWord_of_fields height)

/-- Decoding a header's bytes runs the check on that header, legal or not. -/
theorem headerDecode_headerVector (hd : Header) : headerDecode (headerVector hd) = headerCheck hd := by
  rw [headerDecode_of_magic rfl, headerFields_headerVector]

/-- Fourteen bytes that begin with the magic are the bytes of the header they spell. -/
theorem headerBytes_headerFields {b : Vector Byte 14} (magic : [b[0], b[1], b[2], b[3]] = magicBytes) :
    headerBytes (headerFields b) = b.toList := by
  calc headerBytes (headerFields b)
    _ = (Vector.ofFn fun i : Fin 14 => b[i]).toList := by
      rw [headerBytes, headerFields, bigEndianBytes_of_word, bigEndianBytes_of_word, ← magic]
      rfl
    _ = b.toList := congrArg Vector.toList Vector.ofFn_getElem

/-- HeaderDecode accepts exactly the bytes of legal headers, each as its own header. -/
theorem headerDecode_eq_ok_iff {b : Vector Byte 14} {hd : Header} :
    headerDecode b = .ok hd ↔ headerCheck hd = .ok hd ∧ b.toList = headerBytes hd := by
  constructor
  · intro accepted
    by_cases magic : [b[0], b[1], b[2], b[3]] = magicBytes
    · have checked : headerCheck (headerFields b) = .ok hd := by rw [← headerDecode_of_magic magic, accepted]
      obtain ⟨rfl, -⟩ := headerCheck_ok checked
      exact ⟨checked, (headerBytes_headerFields magic).symm⟩
    · rw [headerDecode_of_not_magic magic] at accepted
      cases accepted
  · rintro ⟨legal, bytes⟩
    rw [Vector.toList_inj.mp (bytes.trans (toList_headerVector hd).symm), headerDecode_headerVector, legal]

/-- Settles O26: both directions are the characterisation of what HeaderDecode accepts, for a legal header at the vector
of its bytes. -/
theorem headerRoundTrip : Obligations.HeaderRoundTrip := by
  constructor
  · intro hd legal
    exact ⟨headerVector hd, headerEncode_of_ok legal, headerDecode_eq_ok_iff.mpr ⟨legal, toList_headerVector hd⟩⟩
  · intro b hd accepted
    obtain ⟨legal, bytes⟩ := headerDecode_eq_ok_iff.mp accepted
    rw [headerEncode_of_ok legal, bytes]

end Sys2Proof.Machine
end

section
/-! PROOFS. The color hash (spec/41_color_cache.md R125): the slot as a weighted sum of the channels mod 64. -/

namespace Sys2Proof.Machine

theorem hash_val (p : Pixel) :
    (hash p).val = (3 * p.r.toNat + 5 * p.g.toNat + 7 * p.b.toNat + 11 * p.a.toNat) % 64 :=
  rfl

/-- The weights add up to 26, and a channel is at most 255. -/
theorem weightedSum_le (p : Pixel) :
    3 * p.r.toNat + 5 * p.g.toNat + 7 * p.b.toNat + 11 * p.a.toNat ≤ 6630 := by
  have hr := p.r.isLt
  have hg := p.g.isLt
  have hb := p.b.isLt
  have ha := p.a.isLt
  omega

/-- A weighted sum of congruent channels is congruent. -/
theorem hash_eq_of_modEq {p q : Pixel} (hr : p.r.toNat ≡ q.r.toNat [MOD 64]) (hg : p.g.toNat ≡ q.g.toNat [MOD 64])
    (hb : p.b.toNat ≡ q.b.toNat [MOD 64]) (ha : p.a.toNat ≡ q.a.toNat [MOD 64]) : hash p = hash q :=
  Fin.ext ((((hr.mul_left 3).add (hg.mul_left 5)).add (hb.mul_left 7)).add (ha.mul_left 11))

/-- Settles O27: the hash is the sum mod 64 by its definition, and equal low six bits are congruence mod 64. -/
theorem hashIsTheWeightedSum : Obligations.HashIsTheWeightedSum :=
  fun p => ⟨hash_val p, weightedSum_le p, fun _ => hash_eq_of_modEq⟩

end Sys2Proof.Machine
end

section
/-! PROOFS. The invariant of the machine (spec/10_state.md section 2) is kept by every step. Its clauses are sorted by
the job state they speak of; each operation is shown to keep the clauses it touches, and a step is one of the cases of
`hostMove_cases`, `encoderStep_cases` and `decoderStep_cases`. -/

namespace Sys2Proof.Machine

/-! ### The invariant by job state -/

/-- The clauses of `Inv` that are the same in every job state. -/
structure BaseInv (s : State) : Prop where
  run_below : s.run.toNat < 62
  in_run : s.encState = .inRun ↔ s.run ≠ 0
  decode_run : s.jobMode = .decode → s.run = 0
  npix_bound : s.npix.toNat < 2 ^ 62
  pixels_within : s.pixcnt.toNat ≤ s.npix.toNat
  header_known : s.hdrValid = true ↔ s.npix ≠ 0
  cache_slots : ∀ i : Fin 64, hash (cacheLookup s.cache i) = i ∨ cacheLookup s.cache i = zeroPixel
  error_class : s.errClass = classOf s.errCode
  in_bound : s.inq.length ≤ Config.inDepth
  out_bound : s.out.length ≤ Config.outDepth

/-- What `Inv` asks of a running job besides `BaseInv`. -/
structure Running (s : State) : Prop where
  busy : s.state = .busy
  no_error : s.errCode = .none
  encode_owes : s.jobMode = .encode → s.pixcnt.toNat < s.npix.toNat
  decode_phase : s.jobMode = .decode → phaseHolds s
  in_kinds : ∀ t ∈ s.inq, kindMatches s.jobMode t = true
  out_data : ∀ t ∈ s.out, isDataOf s.jobMode t = true

theorem Inv.base {s : State} (inv : Inv s) : BaseInv s := { inv with }

theorem Inv.running {s : State} (inv : Inv s) (busy : s.state = .busy) : Running s where
  busy := busy
  no_error := inv.no_error (.inl busy)
  encode_owes := inv.encode_owes busy
  decode_phase := inv.decode_phase busy
  in_kinds := inv.in_kinds busy
  out_data := inv.out_data busy

/-- A running job: the clauses on ended jobs are void. -/
theorem Running.inv {s : State} (job : Running s) (base : BaseInv s) : Inv s :=
  { base with
    error_named := by simp [job.busy]
    no_error := fun _ => job.no_error
    encode_owes := fun _ => job.encode_owes
    decode_phase := fun _ => job.decode_phase
    in_kinds := fun _ => job.in_kinds
    out_data := fun _ => job.out_data
    out_done := by simp [job.busy]
    out_error := by simp [job.busy] }

/-- Without a job only the base is left. -/
theorem BaseInv.inv_of_idle {s : State} (base : BaseInv s) (idle : s.state = .idle) : Inv s :=
  { base with
    error_named := by simp [idle]
    no_error := by simp [idle]
    encode_owes := by simp [idle]
    decode_phase := by simp [idle]
    in_kinds := by simp [idle]
    out_data := by simp [idle]
    out_done := by simp [idle]
    out_error := by simp [idle] }

/-! What each phase says of the counters. -/

theorem phaseHolds_hdr {s : State} {k : Fin 14} (phase : s.dphase = .hdr k) :
    phaseHolds s ↔ s.npix = 0 ∧ s.pixcnt = 0 ∧ s.bytecnt.toNat = k.val := by
  simp only [phaseHolds, phase]

theorem phaseHolds_chunk {s : State} {k : Fin 5} (phase : s.dphase = .chunk k) :
    phaseHolds s ↔ s.pixcnt.toNat < s.npix.toNat ∧ (k.val = 0 ∨ k.val < chunkLength s.opbuf[0]) := by
  simp only [phaseHolds, phase]

theorem phaseHolds_endm {s : State} {k : Fin 8} (phase : s.dphase = .endm k) :
    phaseHolds s ↔ s.pixcnt = s.npix ∧ s.npix ≠ 0 := by
  simp only [phaseHolds, phase]

/-! ### The two ends of a job -/

/-- Error entry (spec/60_exceptions.md R275): OUT ends in the ABORT_MARK of the error recorded. -/
theorem BaseInv.inv_raiseError {s : State} {e : ErrCode} (base : BaseInv s) (isError : e ≠ .none)
    (data : ∀ t ∈ s.out, isDataOf s.jobMode t = true) (room : s.out.length + 1 ≤ Config.outDepth) :
    Inv (raiseError e s) :=
  { base with
    error_class := rfl
    error_named := fun _ => isError
    no_error := by simp
    encode_owes := by simp
    decode_phase := by simp
    in_kinds := by simp
    out_bound := by simpa using room
    out_data := by simp
    out_done := by simp
    out_error := fun _ => .inr ⟨s.out, rfl, data⟩ }

/-- Successful end (spec/45_decoder.md R228): OUT ends in DONE_MARK. -/
theorem BaseInv.inv_completeJob {s : State} (base : BaseInv s) (noError : s.errCode = .none)
    (data : ∀ t ∈ s.out, isDataOf s.jobMode t = true) (room : s.out.length + 1 ≤ Config.outDepth) :
    Inv (completeJob s) :=
  { base with
    error_named := by simp
    no_error := fun _ => noError
    encode_owes := by simp
    decode_phase := by simp
    in_kinds := by simp
    out_bound := by simpa using room
    out_data := by simp
    out_done := fun _ => .inr ⟨s.out, rfl, data⟩
    out_error := by simp }

/-! ### The host's moves -/

/-- The moves still planned are the host's; no clause reads them. -/
theorem Inv.withTurns {s : State} (inv : Inv s) (ts : List Turn) : Inv { s with turns := ts } := { inv with }

theorem baseInv_jobInit (s : State) : BaseInv (jobInit s) where
  run_below := by simp
  in_run := by simp
  decode_run := by simp
  npix_bound := by simp
  pixels_within := by simp
  header_known := by simp
  cache_slots := fun i => .inr (cacheLookup_empty i)
  error_class := rfl
  in_bound := by simp
  out_bound := by simp

theorem headerBytes_length (hd : Header) : (headerBytes hd).length = 14 := rfl

/-- A legal header has pixels. -/
theorem pixelCount_ne_zero {hd : Header} (legal : headerCheck hd = .ok hd) : pixelCount hd ≠ 0 := by
  obtain ⟨count, positive, -⟩ := pixelCount_of_legal legal
  intro zero
  rw [zero] at count
  exact absurd count (Nat.ne_of_lt positive)

theorem outDepth_ge : 62 ≤ Config.outDepth := Nat.le_add_left _ _

/-- A decode job waits for its first header byte. -/
theorem inv_jobInit_of_decode {s : State} (mode : s.ctrlMode = .decode) : Inv (jobInit s) :=
  have job : Running (jobInit s) := {
    busy := rfl
    no_error := rfl
    encode_owes := by simp [mode]
    decode_phase := fun _ => (phaseHolds_hdr rfl).mpr ⟨rfl, rfl, rfl⟩
    in_kinds := by simp
    out_data := by simp }
  job.inv (baseInv_jobInit s)

/-- An encode job has an error, or owes all pixels of a legal header and has pushed its bytes
(spec/44_encoder.md R196). -/
theorem inv_encoderStart_jobInit {s : State} (mode : s.ctrlMode = .encode) : Inv (encoderStart (jobInit s)) := by
  have base : BaseInv (jobInit s) := baseInv_jobInit s
  have depth := outDepth_ge
  cases result : headerEncode (configHeader (jobInit s)) with
  | raised e =>
    have isError : e ≠ .none := by
      rintro rfl
      simpa using (headerCheck_raised (headerEncode_raised result)).2
    rw [encoderStart_raised result]
    exact base.inv_raiseError isError (by simp) (by simp; omega)
  | ok bytes =>
    obtain ⟨legal, rfl⟩ := headerEncode_ok result
    obtain ⟨count, positive, small⟩ := pixelCount_of_legal legal
    rw [encoderStart_ok result]
    refine Running.inv ?job ?base
    case job => exact {
      busy := rfl
      no_error := rfl
      encode_owes := fun _ => by simp; omega
      decode_phase := by simp [mode]
      in_kinds := by simp
      out_data := by simp [mode, isDataOf] }
    case base => exact { base with
      npix_bound := count.trans_lt small
      pixels_within := Nat.zero_le _
      header_known := by simpa using pixelCount_ne_zero legal
      out_bound := by
        simp [headerBytes_length]
        omega }

theorem inv_startJob (s : State) : Inv (startJob s) := by
  rw [startJob]
  cases mode : s.ctrlMode with
  | encode => exact inv_encoderStart_jobInit mode
  | decode => exact inv_jobInit_of_decode mode

/-- Reset leaves an idle block (spec/70_reset_and_hazards.md R300), whose fields are those of a job's start but for the
job mode. -/
theorem inv_resetBlock (s : State) : Inv (resetBlock s) :=
  BaseInv.inv_of_idle { baseInv_jobInit s with decode_run := by simp [resetBlock, State.reset] } rfl

/-- A CTRL write that starts no job writes MODE and IRQ_EN, and where it acknowledges the job's end it drops what `Inv`
asks of an ended job (spec/46_control.md R253). -/
theorem Inv.ctrlWritten {s : State} (inv : Inv s) (mode : JobMode) (irqEn : Bool) (ack : Prop) [Decidable ack] :
    Inv { s with ctrlMode := mode, ctrlIrqEn := irqEn, state := if ack then .idle else s.state } := by
  by_cases acked : ack
  · rw [if_pos acked]
    exact BaseInv.inv_of_idle { inv.base with } rfl
  · rw [if_neg acked]
    exact { inv with }

/-- A push is of the job's kind and within IN_DEPTH (spec/46_control.md R254). -/
theorem Inv.push {s : State} {tok : InToken} (inv : Inv s) (busy : s.state = .busy)
    (room : s.inq.length < Config.inDepth) (kind : kindMatches s.jobMode tok = true) :
    Inv { s with inq := s.inq ++ [tok] } :=
  { inv with
    in_kinds := fun _ => List.forall_mem_append.mpr ⟨inv.in_kinds busy, List.forall_mem_singleton.mpr kind⟩
    in_bound := by simpa using room }

/-- A final part of "nothing, or data tokens and then a terminal token" is of that form too. -/
theorem endsIn_tail {mode : JobMode} {mark tok : OutToken} {rest : List OutToken}
    (h : tok :: rest = [] ∨ ∃ ds, tok :: rest = ds ++ [mark] ∧ ∀ t ∈ ds, isDataOf mode t = true) :
    rest = [] ∨ ∃ ds, rest = ds ++ [mark] ∧ ∀ t ∈ ds, isDataOf mode t = true := by
  obtain ⟨_ | ⟨d, ds⟩, parts, data⟩ := h.resolve_left (List.cons_ne_nil _ _)
  · exact .inl (List.cons.inj parts).2
  · exact .inr ⟨ds, (List.cons.inj parts).2, fun t member => data t (List.mem_cons_of_mem _ member)⟩

/-- A pop takes the oldest token of OUT, so what is left ends as before (spec/46_control.md R255). -/
theorem Inv.pop {s : State} {tok : OutToken} {rest : List OutToken} (inv : Inv s) (out : s.out = tok :: rest) :
    Inv { s with out := rest, popped := s.popped ++ [tok] } :=
  { inv with
    out_bound := by
      have bound := inv.out_bound
      rw [out] at bound
      exact Nat.le_of_succ_le bound
    out_data := fun busy t member => inv.out_data busy t (by simp [out, member])
    out_done := fun done => endsIn_tail (out ▸ inv.out_done done)
    out_error := fun error => endsIn_tail (out ▸ inv.out_error error) }

/-- The cases are those of `hostMove_cases`: a register, START, CTRL without a start, a read, a push, a pop, reset. -/
theorem hostMove_keeps_inv {e : HostEvent} {s t : State} (inv : Inv s) (moved : hostMove e s = .next t) : Inv t := by
  obtain ⟨w, ht, c, cs, rfl⟩ | ⟨v, -, -, -, rfl⟩ | ⟨v, -, -, rfl⟩ | ⟨off, -, rfl⟩ | ⟨tok, -, busy, room, kind, rfl⟩ |
    ⟨tok, rest, -, out, rfl⟩ | ⟨-, rfl⟩ := hostMove_cases moved
  · exact { inv with }
  · exact inv_startJob _
  · exact inv.ctrlWritten _ _ _
  · exact { inv with }
  · exact inv.push busy room kind
  · exact inv.pop out
  · exact inv_resetBlock s

/-! ### Cache and counters under a pixel -/

/-- A pixel that writes at most its own slot keeps the clause on the cache (spec/41_color_cache.md R129). -/
theorem cacheSlots_of_kept_or_stored {slots slots' : Cache} {p : Pixel}
    (stored : slots' = slots ∨ slots' = cacheStore slots p)
    (h : ∀ i : Fin 64, hash (cacheLookup slots i) = i ∨ cacheLookup slots i = zeroPixel) (i : Fin 64) :
    hash (cacheLookup slots' i) = i ∨ cacheLookup slots' i = zeroPixel := by
  rcases stored with rfl | rfl
  · exact h i
  · exact cacheStore_slots p h i

/-- A counter that stays within another counter does not wrap. -/
theorem count_add {p n : Count} {k : Nat} (h : p.toNat + k ≤ n.toNat) :
    (p + BitVec.ofNat 64 k).toNat = p.toNat + k := by
  have := n.isLt
  rw [BitVec.toNat_add, BitVec.toNat_ofNat]
  omega

/-! ### The encoder step -/

/-- The last pixel is the one after which none is owed (spec/44_encoder.md R197). -/
theorem isLastPixel_iff {s : State} (owes : s.pixcnt.toNat < s.npix.toNat) :
    isLastPixel s = true ↔ s.pixcnt.toNat + 1 = s.npix.toNat := by
  rw [isLastPixel, decide_eq_true_eq]
  bv_omega

/-- Stream bytes are data of an encode job. -/
theorem outBytes_out_data {s : State} (bs : List Byte) (mode : s.jobMode = .encode)
    (data : ∀ t ∈ s.out, isDataOf s.jobMode t = true) :
    ∀ t ∈ (outBytes bs s).out, isDataOf (outBytes bs s).jobMode t = true := by
  refine List.forall_mem_append.mpr ⟨data, fun t new => ?_⟩
  obtain ⟨b, -, rfl⟩ := List.mem_map.mp new
  rw [outBytes_jobMode, mode]
  rfl

theorem baseInv_outBytes {s : State} {bs : List Byte} (base : BaseInv s)
    (room : s.out.length + bs.length ≤ Config.outDepth) : BaseInv (outBytes bs s) :=
  { base with out_bound := by simpa using room }

/-- A pixel taken by the encoder keeps the base, with a run below 62 and at most the pixel's own slot written. -/
theorem baseInv_encoderCommit {s : State} {p : Pixel} {k : Taken} {bs : List Byte} (base : BaseInv s)
    (mode : s.jobMode = .encode) (owes : s.pixcnt.toNat < s.npix.toNat) (run : k.run < 62)
    (slots : k.cache = s.cache ∨ k.cache = cacheStore s.cache p)
    (room : s.out.length + bs.length ≤ Config.outDepth) : BaseInv (encoderCommit p k bs s) :=
  { base with
    run_below := by simp; omega
    in_run := by
      have fits : BitVec.ofNat 6 k.run = 0#6 ↔ k.run = 0 := by
        rw [← BitVec.toNat_inj]
        simp
        omega
      simp [fits, Nat.pos_iff_ne_zero]
    decode_run := by simp [mode]
    pixels_within := by
      rw [encoderCommit_pixcnt, count_succ _ _ owes]
      exact owes
    cache_slots := by
      rw [encoderCommit_cache]
      exact cacheSlots_of_kept_or_stored slots base.cache_slots
    out_bound := by simpa using room }

theorem encoderStep_keeps_inv {tok : InToken} {s t : State} (inv : Inv s) (busy : s.state = .busy)
    (mode : s.jobMode = .encode) (room : s.out.length + 15 ≤ Config.outDepth)
    (stepped : encoderStep tok s = .next t) : Inv t := by
  have job : Running s := inv.running busy
  have owes : s.pixcnt.toNat < s.npix.toNat := job.encode_owes mode
  obtain ⟨-, eos⟩ | ⟨b, -, refused⟩ | ⟨p, bs, r, slots, -, length, run, -, stored, taken⟩ :=
    encoderStep_cases tok s inv.run_below
  · cases eos.symm.trans stepped
    exact inv.base.inv_raiseError (by decide) job.out_data (by omega)
  · cases refused.symm.trans stepped
  · cases taken.symm.trans stepped
    have base : BaseInv (encoderCommit p ⟨.ok bs, r, slots⟩ bs s) :=
      baseInv_encoderCommit inv.base mode owes run stored (by omega)
    have data := outBytes_out_data bs mode job.out_data
    split
    next last =>
      refine BaseInv.inv_completeJob (baseInv_outBytes base ?_) job.no_error (outBytes_out_data endMarker mode data) ?_
      all_goals simp [endMarker]; omega
    next notLast =>
      rw [isLastPixel_iff owes] at notLast
      exact Running.inv
        { job with
          encode_owes := fun _ => by
            rw [encoderCommit_pixcnt, encoderCommit_npix, count_succ _ _ owes]
            omega
          decode_phase := by simp [mode]
          out_data := data } base

/-! ### The decoder step -/

/-- The state in which a decode job has produced `n` copies of the pixel `q`, with `slots` as the cache. -/
def pixelsProduced (q : Pixel) (n : Nat) (slots : Cache) (s : State) : State :=
  { s with
    prev := q
    cache := slots
    out := s.out ++ List.replicate n (.pixel q)
    pixcnt := s.pixcnt + BitVec.ofNat 64 n }

/-- A buffered chunk produces between 1 and 62 pixels, no more than are owed, with at most the pixel's own slot written;
or it is a RUN past the pixels owed. -/
theorem exec_bufferedChunk_cases (op : Vector Byte 5) {s : State} (owes : s.pixcnt.toNat < s.npix.toNat) :
    exec (bufferedChunk op) s = .next (raiseError .pixelCount s) ∨
    ∃ q n slots, 1 ≤ n ∧ n ≤ 62 ∧ s.pixcnt.toNat + n ≤ s.npix.toNat ∧
      (slots = s.cache ∨ slots = cacheStore s.cache q) ∧
      exec (bufferedChunk op) s = .next (pixelsProduced q n slots s) := by
  obtain ⟨q, stored⟩ | ⟨j, -, looked⟩ | ⟨n, isRun, within, repeated⟩ | ⟨n, -, -, overshoot⟩ :=
    exec_cases (bufferedChunk op) s
  · exact .inr ⟨q, 1, _, by omega, by omega, owes, .inr rfl, stored⟩
  · exact .inr ⟨_, 1, _, by omega, by omega, owes, .inl rfl, looked⟩
  · obtain ⟨atLeast, atMost⟩ := bufferedChunk_run isRun
    rw [emitTimes_eq] at repeated
    exact .inr ⟨s.prev, n, s.cache, atLeast, atMost, within, .inl rfl, repeated⟩
  · exact .inl overshoot

/-- The phase after a chunk holds: CHUNK while pixels are owed, ENDM when none is (spec/45_decoder.md R226). -/
theorem phaseHolds_phaseAfterChunk {u : State} (op : Vector Byte 5) (bytes : Count)
    (within : u.pixcnt.toNat ≤ u.npix.toNat) (known : u.npix ≠ 0) :
    phaseHolds { u with opbuf := op, bytecnt := bytes, dphase := phaseAfterChunk u } := by
  by_cases all : u.pixcnt = u.npix
  · exact (phaseHolds_endm (if_pos all)).mpr ⟨all, known⟩
  · have owes : u.pixcnt.toNat ≠ u.npix.toNat := fun same => all (BitVec.eq_of_toNat_eq same)
    exact (phaseHolds_chunk (if_neg all)).mpr ⟨Nat.lt_of_le_of_ne within owes, .inl rfl⟩

/-- A committed chunk: the base is kept, and the next phase is the end marker when no pixel is owed any more
(spec/45_decoder.md R226). -/
theorem Inv.chunkCommitted {s : State} {q : Pixel} {n : Nat} {slots : Cache} {op : Vector Byte 5} (inv : Inv s)
    (busy : s.state = .busy) (mode : s.jobMode = .decode) (nonempty : 1 ≤ n)
    (within : s.pixcnt.toNat + n ≤ s.npix.toNat) (stored : slots = s.cache ∨ slots = cacheStore s.cache q)
    (room : s.out.length + n ≤ Config.outDepth) :
    Inv { pixelsProduced q n slots s with
      opbuf := op, bytecnt := s.bytecnt + 1, dphase := phaseAfterChunk (pixelsProduced q n slots s) } := by
  have job : Running s := inv.running busy
  have count : (pixelsProduced q n slots s).pixcnt.toNat = s.pixcnt.toNat + n := count_add within
  refine Running.inv ?job ?base
  case base => exact { inv.base with
    pixels_within := count.trans_le within
    cache_slots := cacheSlots_of_kept_or_stored stored inv.cache_slots
    out_bound := by simpa [pixelsProduced] using room }
  case job => exact { job with
    encode_owes := by simp [pixelsProduced, mode]
    decode_phase := fun _ => phaseHolds_phaseAfterChunk op _ (count.trans_le within) fun zero => by
      have noPixels : s.npix.toNat = 0 := congrArg BitVec.toNat zero
      omega
    out_data := List.forall_mem_append.mpr ⟨job.out_data, fun t new => by
      rw [List.eq_of_mem_replicate new]
      simp [pixelsProduced, mode, isDataOf]⟩ }

/-- A header byte taken before the last (spec/45_decoder.md R221). -/
theorem Inv.headerByte {s : State} {k : Fin 14} (inv : Inv s) (busy : s.state = .busy) (mode : s.jobMode = .decode)
    (phase : s.dphase = .hdr k) (buf : Vector Byte 14) (more : k.val + 1 < 14) :
    Inv { s with hdrbuf := buf, bytecnt := s.bytecnt + 1, dphase := .hdr ⟨k.val + 1, more⟩ } :=
  { inv with
    decode_phase := fun _ _ => by
      obtain ⟨unknown, noPixels, bytes⟩ := (phaseHolds_hdr phase).mp (inv.decode_phase busy mode)
      exact ⟨unknown, noPixels, by simp; omega⟩ }

/-- An accepted header makes the pixel count known (spec/45_decoder.md R223). -/
theorem Inv.headerAccepted {s : State} {k : Fin 14} {hd : Header} (inv : Inv s) (busy : s.state = .busy)
    (mode : s.jobMode = .decode) (phase : s.dphase = .hdr k) (legal : headerCheck hd = .ok hd)
    (buf : Vector Byte 14) (bytes : Count) :
    Inv (acceptHeader hd { s with hdrbuf := buf, bytecnt := bytes }) := by
  obtain ⟨-, noPixels, -⟩ := (phaseHolds_hdr phase).mp (inv.decode_phase busy mode)
  obtain ⟨count, positive, small⟩ := pixelCount_of_legal legal
  exact { inv with
    npix_bound := count.trans_lt small
    pixels_within := by simp [noPixels]
    header_known := by simpa using pixelCount_ne_zero legal
    encode_owes := by simp [mode]
    decode_phase := fun _ _ => ⟨by simp [noPixels]; omega, .inl rfl⟩ }

/-- A byte of a chunk taken before its last (spec/45_decoder.md R224). -/
theorem Inv.chunkByte {s : State} {k : Fin 5} {op : Vector Byte 5} (inv : Inv s) (busy : s.state = .busy)
    (mode : s.jobMode = .decode) (phase : s.dphase = .chunk k) (more : k.val + 1 < 5)
    (inside : k.val + 1 < chunkLength op[0]) :
    Inv { s with opbuf := op, bytecnt := s.bytecnt + 1, dphase := .chunk ⟨k.val + 1, more⟩ } :=
  { inv with
    decode_phase := fun _ _ => by
      obtain ⟨owes, -⟩ := (phaseHolds_chunk phase).mp (inv.decode_phase busy mode)
      exact ⟨owes, .inr inside⟩ }

/-- A byte of the end marker taken before the last (spec/45_decoder.md R227). -/
theorem Inv.endMarkerByte {s : State} {k : Fin 8} (inv : Inv s) (busy : s.state = .busy) (mode : s.jobMode = .decode)
    (phase : s.dphase = .endm k) (bytes : Count) (k' : Fin 8) :
    Inv { s with bytecnt := bytes, dphase := .endm k' } :=
  { inv with
    decode_phase := fun _ _ => (phaseHolds_endm phase).mp (inv.decode_phase busy mode) }

/-- ROOM is never 0, so an ABORT_MARK or a DONE_MARK fits (spec/46_control.md R256). -/
theorem roomNeeded_pos (s : State) : 1 ≤ roomNeeded s := by
  unfold roomNeeded
  split
  · decide
  · split <;> decide

theorem roomNeeded_of_chunk {s : State} {k : Fin 5} (mode : s.jobMode = .decode) (phase : s.dphase = .chunk k) :
    roomNeeded s = 62 := by
  simp [roomNeeded, mode, phase]

/-- Executing the buffered chunk commits it, or raises PIXEL_COUNT and commits nothing. -/
theorem commitChunk_keeps_inv {s t : State} {k : Fin 5} {op : Vector Byte 5} (inv : Inv s) (busy : s.state = .busy)
    (mode : s.jobMode = .decode) (phase : s.dphase = .chunk k) (room : s.out.length + 62 ≤ Config.outDepth)
    (stepped : commitChunk op (exec (bufferedChunk op) s) = .next t) : Inv t := by
  have job : Running s := inv.running busy
  obtain ⟨owes, -⟩ := (phaseHolds_chunk phase).mp (job.decode_phase mode)
  obtain ⟨u, executed, committed⟩ := commitChunk_next stepped
  obtain overshoot | ⟨q, n, slots, nonempty, atMost, within, stored, produced⟩ := exec_bufferedChunk_cases op owes
  · cases overshoot.symm.trans executed
    obtain ⟨running, -⟩ | ⟨-, rfl⟩ := committed
    · cases running
    · exact inv.base.inv_raiseError (by decide) job.out_data (by omega)
  · cases produced.symm.trans executed
    obtain ⟨-, rfl⟩ | ⟨ended, -⟩ := committed
    · exact inv.chunkCommitted busy mode nonempty within stored (by omega)
    · exact absurd busy ended

/-- The cases are those of `decoderStep_cases`: a refusal, an error, a header byte, the header, a chunk's earlier byte,
its execution, an end-marker byte, the job's end. -/
theorem decoderStep_keeps_inv {tok : InToken} {s t : State} (inv : Inv s) (busy : s.state = .busy)
    (mode : s.jobMode = .decode) (room : s.out.length + roomNeeded s ≤ Config.outDepth)
    (stepped : decoderStep tok s = .next t) : Inv t := by
  have job : Running s := inv.running busy
  have roomForMark : s.out.length + 1 ≤ Config.outDepth := by have := roomNeeded_pos s; omega
  obtain ⟨p, -, refused⟩ | ⟨e, isError, raised⟩ | ⟨k, b, more, phase, taken⟩ | ⟨b, hd, phase, legal, accepted⟩ |
    ⟨k, b, more, phase, inside, taken⟩ | ⟨k, op, phase, executed⟩ | ⟨k, more, phase, taken⟩ | ⟨k, -, completed⟩ :=
    decoderStep_cases tok s
  · cases refused.symm.trans stepped
  · cases raised.symm.trans stepped
    exact inv.base.inv_raiseError isError job.out_data roomForMark
  · cases taken.symm.trans stepped
    exact inv.headerByte busy mode phase _ more
  · cases accepted.symm.trans stepped
    exact inv.headerAccepted busy mode phase legal _ _
  · cases taken.symm.trans stepped
    exact inv.chunkByte busy mode phase more inside
  · rw [roomNeeded_of_chunk mode phase] at room
    exact commitChunk_keeps_inv inv busy mode phase room (executed.symm.trans stepped)
  · cases taken.symm.trans stepped
    exact inv.endMarkerByte busy mode phase _ _
  · cases completed.symm.trans stepped
    exact BaseInv.inv_completeJob { inv.base with } job.no_error job.out_data roomForMark

/-! ### The step -/

/-- A token popped from IN leaves a part of what IN held. -/
theorem Inv.popIn {s : State} {tok : InToken} {rest : List InToken} (inv : Inv s) (inq : s.inq = tok :: rest) :
    Inv { s with inq := rest } :=
  { inv with
    in_kinds := fun busy t member => inv.in_kinds busy t (by simp [inq, member])
    in_bound := by
      have bound := inv.in_bound
      rw [inq] at bound
      exact Nat.le_of_succ_le bound }

theorem blockStep_keeps_inv {s t : State} (inv : Inv s) (stepped : blockStep s = .next t) : Inv t := by
  obtain idle | ⟨tok, rest, inq, busy, room, ⟨mode, -, encoder⟩ | ⟨mode, decoder⟩⟩ := blockStep_cases stepped
  · cases idle
    exact inv
  · have room15 : s.out.length + 15 ≤ Config.outDepth := by simpa [roomNeeded, mode] using room
    exact encoderStep_keeps_inv (inv.popIn inq) busy mode room15 encoder.symm
  · exact decoderStep_keeps_inv (inv.popIn inq) busy mode room decoder.symm

/-- Settles O58: a step is a move of the host or of the block, and each keeps the invariant. -/
theorem everyStepKeepsTheInvariant : Obligations.EveryStepKeepsTheInvariant := by
  intro s t inv stepped
  cases turns : s.turns with
  | nil =>
    rw [step_unplanned s turns] at stepped
    exact blockStep_keeps_inv inv stepped
  | cons turn ts =>
    cases turn with
    | block =>
      rw [step_block s ts (.inr turns)] at stepped
      exact blockStep_keeps_inv (inv.withTurns ts) stepped
    | host e =>
      rw [step_host s e ts turns] at stepped
      exact hostMove_keeps_inv (inv.withTurns ts) stepped

end Sys2Proof.Machine
end

section
/-! PROOFS. The decoder reads every well-formed chunk back from its own bytes (spec/30_encoding.md R84 to R91), kind by
kind through the fields of `Laws/Decode.lean`. -/

namespace Sys2Proof

/-- A chunk's bytes are read back if they are as many as their first byte says and the buffer they make holds it. -/
theorem decode_encode_of_buffer {i : Instr} {b0 : Byte} {bs : List Byte} (rest : List Byte)
    (bytes : encode i = b0 :: bs) (length : chunkLength b0 = bs.length + 1)
    (buffer : decodeChunk b0 ((bs ++ rest).getD 0 0) ((bs ++ rest).getD 1 0) ((bs ++ rest).getD 2 0)
      ((bs ++ rest).getD 3 0) = i) :
    decode (encode i ++ rest) = .chunk i rest := by
  rw [bytes, List.cons_append, decode_cons b0 (bs ++ rest) (by simp [length]), buffer, length]
  simp

theorem wellFormed_diff_iff {dr dg db : Int} : (Instr.diff dr dg db).wellFormed = true ↔
    (-2 ≤ dr ∧ dr ≤ 1) ∧ (-2 ≤ dg ∧ dg ≤ 1) ∧ (-2 ≤ db ∧ db ≤ 1) := by
  simp only [Instr.wellFormed, Bool.and_eq_true, within_iff, and_assoc]

theorem wellFormed_luma_iff {dr dg db : Int} : (Instr.luma dr dg db).wellFormed = true ↔
    (-32 ≤ dg ∧ dg ≤ 31) ∧ (-8 ≤ dr - dg ∧ dr - dg ≤ 7) ∧ (-8 ≤ db - dg ∧ db - dg ≤ 7) := by
  simp only [Instr.wellFormed, Bool.and_eq_true, within_iff, and_assoc]

theorem wellFormed_run_iff {n : Nat} : (Instr.run n).wellFormed = true ↔ 1 ≤ n ∧ n ≤ 62 := by
  simp only [Instr.wellFormed, decide_eq_true_eq]

/-- Every well-formed chunk is read back from its own bytes, whatever follows them. -/
theorem decode_encode_append {i : Instr} (wf : i.wellFormed = true) (rest : List Byte) :
    decode (encode i ++ rest) = .chunk i rest := by
  cases i with
  | rgb r g b => exact decode_encode_of_buffer rest rfl rfl rfl
  | rgba r g b a => exact decode_encode_of_buffer rest rfl rfl rfl
  | index slot =>
    obtain ⟨kind, field⟩ := index_byte_fields (BitVec.ofNat 6 slot.val)
    refine decode_encode_of_buffer rest rfl (by rw [chunkLength, kind]; rfl) ?_
    simp only [decodeChunk, kind, field, BitVec.toNat_ofNat, Nat.mod_eq_of_lt slot.isLt]
    simp
  | diff dr dg db =>
    obtain ⟨⟨hr, hr'⟩, ⟨hg, hg'⟩, ⟨hb, hb'⟩⟩ := wellFormed_diff_iff.mp wf
    obtain ⟨kind, fieldR, fieldG, fieldB⟩ :=
      diff_byte_fields (BitVec.ofInt 2 (dr + 2)) (BitVec.ofInt 2 (dg + 2)) (BitVec.ofInt 2 (db + 2))
    refine decode_encode_of_buffer rest rfl (by rw [chunkLength, kind]; rfl) ?_
    simp only [decodeChunk, kind, fieldR, fieldG, fieldB]
    rw [toNat_ofInt_of_fits 2 (dr + 2) (by omega) (by omega), toNat_ofInt_of_fits 2 (dg + 2) (by omega) (by omega),
      toNat_ofInt_of_fits 2 (db + 2) (by omega) (by omega)]
    simp
  | luma dr dg db =>
    obtain ⟨⟨hg, hg'⟩, ⟨hr, hr'⟩, ⟨hb, hb'⟩⟩ := wellFormed_luma_iff.mp wf
    obtain ⟨kind, fieldG⟩ := luma_byte_fields (BitVec.ofInt 6 (dg + 32))
    obtain ⟨fieldR, fieldB⟩ := nibble_byte_fields (BitVec.ofInt 4 (dr - dg + 8)) (BitVec.ofInt 4 (db - dg + 8))
    refine decode_encode_of_buffer rest rfl (by rw [chunkLength, kind]; rfl) ?_
    simp only [decodeChunk, kind, fieldG, List.cons_append, List.getD_cons_zero, fieldR, fieldB]
    rw [toNat_ofInt_of_fits 6 (dg + 32) (by omega) (by omega),
      toNat_ofInt_of_fits 4 (dr - dg + 8) (by omega) (by omega),
      toNat_ofInt_of_fits 4 (db - dg + 8) (by omega) (by omega)]
    simp
  | run n =>
    obtain ⟨pos, le⟩ := wellFormed_run_iff.mp wf
    have value : (BitVec.ofNat 6 (n - 1)).toNat = n - 1 := by
      rw [BitVec.toNat_ofNat, Nat.mod_eq_of_lt (by omega)]
    obtain ⟨kind, field⟩ := run_byte_fields (BitVec.ofNat 6 (n - 1)) (by omega)
    refine decode_encode_of_buffer rest rfl (by rw [chunkLength, kind]; rfl) ?_
    simp only [decodeChunk, kind, field, value, Nat.sub_add_cancel pos]

theorem decode_encode {i : Instr} (wf : i.wellFormed = true) : decode (encode i) = .chunk i [] := by
  simpa using decode_encode_append wf []

end Sys2Proof
end

section
/-! PROOFS. The encode side of the chunk codec (spec/42_chunk_encode.md): each formatter writes the chunk's bytes in its
bands and raises RANGE outside (R148 to R152), EncodePixel's choice case by case (R142 to R147), and the lock step of
encoder and decoder (R154). -/

namespace Sys2Proof.Machine

/-! ### The formatters -/

/-- Concatenated fields, as the sum the formatters compute. -/
theorem toNat_append_eq_add {m n : Nat} (x : BitVec m) (y : BitVec n) :
    (x ++ y).toNat = x.toNat * 2 ^ n + y.toNat := by
  rw [BitVec.toNat_append, ← Nat.shiftLeft_add_eq_or_of_lt y.isLt, Nat.shiftLeft_eq]

/-- A byte is `wrap8` of its own number. -/
theorem wrap8_eq {x : Int} {b : Byte} (value : (b.toNat : Int) = x) : wrap8 x = b := by
  apply BitVec.eq_of_toNat_eq
  have remainder := wrap8_toNat x
  omega

theorem fmtDiff_eq (dr dg db : Int) : fmtDiff dr dg db =
    if (Instr.diff dr dg db).wellFormed = true then .ok (encode (.diff dr dg db)) else .raised .range := by
  simp only [fmtDiff, wellFormed_diff_iff]
  split
  next bands =>
    obtain ⟨⟨hr, hr'⟩, ⟨hg, hg'⟩, ⟨hb, hb'⟩⟩ := bands
    have fieldR := toNat_ofInt_of_fits 2 (dr + 2) (by omega) (by omega)
    have fieldG := toNat_ofInt_of_fits 2 (dg + 2) (by omega) (by omega)
    have fieldB := toNat_ofInt_of_fits 2 (db + 2) (by omega) (by omega)
    rw [encode, wrap8_eq]
    simp only [toNat_append_eq_add, BitVec.toNat_ofNat]
    omega
  next => rfl

theorem fmtLuma_eq (dr dg db : Int) : fmtLuma dr dg db =
    if (Instr.luma dr dg db).wellFormed = true then .ok (encode (.luma dr dg db)) else .raised .range := by
  simp only [fmtLuma, wellFormed_luma_iff]
  split
  next bands =>
    obtain ⟨⟨hg, hg'⟩, ⟨hr, hr'⟩, ⟨hb, hb'⟩⟩ := bands
    have fieldG := toNat_ofInt_of_fits 6 (dg + 32) (by omega) (by omega)
    have fieldR := toNat_ofInt_of_fits 4 (dr - dg + 8) (by omega) (by omega)
    have fieldB := toNat_ofInt_of_fits 4 (db - dg + 8) (by omega) (by omega)
    rw [encode, wrap8_eq, wrap8_eq]
    · simp only [toNat_append_eq_add]
      omega
    · simp only [toNat_append_eq_add, BitVec.toNat_ofNat]
      omega
  next => rfl

/-- A RUN byte is its tag added to the biased length (R88). -/
theorem encode_run {n : Nat} (le : n ≤ 62) : encode (.run n) = [BitVec.ofNat 8 (0xC0 + (n - 1))] := by
  refine congrArg (fun b => [b]) (BitVec.eq_of_toNat_eq ((toNat_append_eq_add _ _).trans ?_))
  simp only [BitVec.toNat_ofNat]
  omega

theorem fmtRun_of_out_of_band {n : Int} (out : n < 1 ∨ 62 < n) : fmtRun n = .raised .range :=
  if_neg (by omega)

theorem fmtRun_eq (n : Nat) : fmtRun n =
    if (Instr.run n).wellFormed = true then .ok (encode (.run n)) else .raised .range := by
  simp only [wellFormed_run_iff]
  split
  next band => rw [fmtRun_ok n band.1 band.2, encode_run band.2]
  next out => exact fmtRun_of_out_of_band (by omega)

theorem encode_index (i : Fin 64) : encode (.index i) = [BitVec.ofNat 8 i.val] := by
  refine congrArg (fun b => [b]) (BitVec.eq_of_toNat_eq ((toNat_append_eq_add _ _).trans ?_))
  simp only [BitVec.toNat_ofNat]
  omega

theorem fmtIndex_eq (i : Fin 64) : fmtIndex i.val = .ok (encode (.index i)) := by
  rw [fmtIndex, if_pos (by omega), encode_index, wrap8_eq]
  simp only [BitVec.toNat_ofNat]
  omega

theorem fmtIndex_of_out_of_band {i : Int} (out : i < 0 ∨ 63 < i) : fmtIndex i = .raised .range :=
  if_neg (by omega)

/-- Settles O29: each formatter's bytes are the chunk's bit fields, added up. -/
theorem formattersWriteOrRaise : Obligations.FormattersWriteOrRaise :=
  ⟨fmtDiff_eq, fmtLuma_eq, fmtRun_eq, fmtIndex_eq, fun _ => fmtIndex_of_out_of_band, fun _ => fmtRun_of_out_of_band⟩

/-! ### The chunk EncodePixel chooses -/

theorem encodePixel_hit {cache : Cache} {p : Pixel} (prev : Pixel) (hit : cacheLookup cache (hash p) = p) :
    encodePixel prev cache p = (.ok (encode (.index (hash p))), cache) := by
  rw [encodePixel, if_pos hit, fmtIndex_eq]

theorem encodePixel_miss {cache : Cache} {p : Pixel} (prev : Pixel) (miss : cacheLookup cache (hash p) ≠ p) :
    encodePixel prev cache p = (encodeMiss prev p, cacheStore cache p) :=
  if_neg miss

theorem encodeMiss_of_alpha_ne {prev p : Pixel} (alpha : p.a ≠ prev.a) :
    encodeMiss prev p = .ok (encode (.rgba p.r p.g p.b p.a)) :=
  if_neg alpha

section
variable {prev p : Pixel} {dr dg db : Int} (alpha : p.a = prev.a) (hr : dr = channelDelta p.r prev.r)
  (hg : dg = channelDelta p.g prev.g) (hb : db = channelDelta p.b prev.b)
include alpha hr hg hb

/-- With alpha kept, a miss is the narrowest of DIFF, LUMA and RGB that its deltas fit. -/
theorem encodeMiss_of_alpha_eq : encodeMiss prev p =
    if (Instr.diff dr dg db).wellFormed = true then .ok (encode (.diff dr dg db))
    else if (Instr.luma dr dg db).wellFormed = true then .ok (encode (.luma dr dg db))
    else .ok (encode (.rgb p.r p.g p.b)) := by
  subst hr hg hb
  simp only [encodeMiss, if_pos alpha, fitsDiff_eq_wellFormed, fitsLuma_eq_wellFormed, fmtDiff_eq, fmtLuma_eq]
  split
  next => rfl
  next =>
    split
    next => rfl
    next => rfl

theorem encodeMiss_of_diff (diff : (Instr.diff dr dg db).wellFormed = true) :
    encodeMiss prev p = .ok (encode (.diff dr dg db)) := by
  rw [encodeMiss_of_alpha_eq alpha hr hg hb, if_pos diff]

theorem encodeMiss_of_luma (diff : (Instr.diff dr dg db).wellFormed = false)
    (luma : (Instr.luma dr dg db).wellFormed = true) : encodeMiss prev p = .ok (encode (.luma dr dg db)) := by
  rw [encodeMiss_of_alpha_eq alpha hr hg hb, if_neg (by simp [diff]), if_pos luma]

theorem encodeMiss_of_neither (diff : (Instr.diff dr dg db).wellFormed = false)
    (luma : (Instr.luma dr dg db).wellFormed = false) : encodeMiss prev p = .ok (encode (.rgb p.r p.g p.b)) := by
  rw [encodeMiss_of_alpha_eq alpha hr hg hb, if_neg (by simp [diff]), if_neg (by simp [luma])]

end

/-- Settles O30: INDEX of the slot is the slot's number. -/
theorem cacheHitIsIndex : Obligations.CacheHitIsIndex := by
  intro prev p cache hit
  rw [encodePixel_hit prev hit, encode_index]

/-- Settles O31: a miss is the narrowest chunk that its deltas fit. -/
theorem smallDeltasAreDiffOrLuma : Obligations.SmallDeltasAreDiffOrLuma := by
  intro prev p cache dr dg db miss alpha hr hg hb
  rw [encodePixel_miss prev miss]
  constructor
  · intro diff
    rw [encodeMiss_of_diff alpha hr hg hb diff]
  · intro diff luma
    rw [encodeMiss_of_luma alpha hr hg hb diff luma]

/-- Settles O32: RGBA where alpha changed, and RGB is what is left when alpha is kept. -/
theorem otherPixelsAreRgbOrRgba : Obligations.OtherPixelsAreRgbOrRgba := by
  intro prev p cache miss
  rw [encodePixel_miss prev miss]
  constructor
  · intro alpha
    rw [encodeMiss_of_alpha_ne alpha, encode]
  · intro dr dg db alpha hr hg hb diff luma
    rw [encodeMiss_of_neither alpha hr hg hb diff luma, encode]

/-! ### Encoder and decoder in lock step -/

theorem sext8_modEq (v : Byte) : sext8 v ≡ v.toNat [ZMOD 256] := by
  unfold sext8
  split
  next => rfl
  next => exact Int.sub_emod_right _ _

/-- Adding a channel's delta to the old value gives the new one (R141, R174). -/
theorem addDelta_channelDelta (new old : Byte) : addDelta old (channelDelta new old) = new := by
  have sum := addDelta_toNat old (channelDelta new old)
  have difference := wrap8_toNat ((new.toNat : Int) - old.toNat)
  have delta : channelDelta new old % 256 = _ % 256 := sext8_modEq (wrap8 ((new.toNat : Int) - old.toNat))
  apply BitVec.eq_of_toNat_eq
  omega

/-- The deltas from `prev` bring it to a pixel of the same alpha. -/
theorem shifted_channelDelta {prev p : Pixel} (alpha : p.a = prev.a) :
    shifted prev (channelDelta p.r prev.r) (channelDelta p.g prev.g) (channelDelta p.b prev.b) = p := by
  simp only [shifted, addDelta_channelDelta, ← alpha]

/-- A miss gives one well-formed chunk, not a RUN, that produces the pixel and stores it. -/
theorem encodeMiss_lockStep (s : State) (p : Pixel) :
    ∃ i : Instr, encodeMiss s.prev p = .ok (encode i) ∧ i.wellFormed = true ∧ i.kind ≠ .run ∧
      exec i s = .next (produceStored p s) := by
  by_cases alpha : p.a = s.prev.a
  · have shift := shifted_channelDelta alpha
    cases diff : (Instr.diff (channelDelta p.r s.prev.r) (channelDelta p.g s.prev.g)
        (channelDelta p.b s.prev.b)).wellFormed with
    | true =>
      exact ⟨_, encodeMiss_of_diff alpha rfl rfl rfl diff, diff, nofun, by simp only [exec, execDiff, shift]⟩
    | false =>
      cases luma : (Instr.luma (channelDelta p.r s.prev.r) (channelDelta p.g s.prev.g)
          (channelDelta p.b s.prev.b)).wellFormed with
      | true =>
        exact ⟨_, encodeMiss_of_luma alpha rfl rfl rfl diff luma, luma, nofun, by simp only [exec, execLuma, shift]⟩
      | false =>
        exact ⟨_, encodeMiss_of_neither alpha rfl rfl rfl diff luma, rfl, nofun,
          by simp only [exec, execRgb, ← alpha]⟩
  · exact ⟨_, encodeMiss_of_alpha_ne alpha, rfl, nofun, rfl⟩

/-- A hit's INDEX produces the pixel and stores nothing. -/
theorem exec_index_of_hit {s : State} {p : Pixel} (hit : cacheLookup s.cache (hash p) = p) :
    exec (.index (hash p)) s = .next (produce p s) := by
  simp only [exec, execIndex, hit]

/-- Settles O33: on a hit INDEX finds the pixel in its slot; on a miss the chosen chunk makes it from `prev`, and
decoder and encoder store it alike. -/
theorem chunkRoundTrip : Obligations.ChunkRoundTrip := by
  intro s p
  by_cases hit : cacheLookup s.cache (hash p) = p
  · exact ⟨_, .index (hash p), s.cache, encodePixel_hit s.prev hit, decode_encode rfl, nofun, exec_index_of_hit hit⟩
  · obtain ⟨i, bytes, wf, notRun, executed⟩ := encodeMiss_lockStep s p
    exact ⟨encode i, i, cacheStore s.cache p, by rw [encodePixel_miss s.prev hit, bytes], decode_encode wf, notRun,
      executed⟩

end Sys2Proof.Machine
end

section
/-! PROOFS. Under the invariant the block never stops (spec/42_chunk_encode.md R155, spec/60_exceptions.md R274): the
run counter stays in the RUN formatter's band, and IN holds no token of the other job's kind. -/

namespace Sys2Proof.Machine

theorem exec_next (i : Instr) (s : State) : ∃ t, exec i s = .next t := by
  obtain ⟨q, stored⟩ | ⟨j, -, indexed⟩ | ⟨n, -, -, ran⟩ | ⟨n, -, -, raised⟩ := exec_cases i s
  · exact ⟨_, stored⟩
  · exact ⟨_, indexed⟩
  · exact ⟨_, ran⟩
  · exact ⟨_, raised⟩

theorem commitChunk_of_next (op : Vector Byte 5) (u : State) : ∃ t, commitChunk op (.next u) = .next t := by
  unfold commitChunk
  dsimp only
  split
  next => exact ⟨_, rfl⟩
  next => exact ⟨_, rfl⟩

/-- An encode job's token never stops the block while the run counter is below 62 (R24). -/
theorem encoderStep_next {tok : InToken} {s : State} (run : s.run.toNat < 62)
    (kind : kindMatches .encode tok = true) : ∃ t, encoderStep tok s = .next t := by
  obtain ⟨-, raised⟩ | ⟨b, rfl, -⟩ | ⟨p, bs, r, slots, -, -, -, -, -, taken⟩ := encoderStep_cases tok s run
  · exact ⟨_, raised⟩
  · cases kind
  · exact ⟨_, taken⟩

/-- A decode job's token never stops the block. -/
theorem decoderStep_next {tok : InToken} (s : State) (kind : kindMatches .decode tok = true) :
    ∃ t, decoderStep tok s = .next t := by
  obtain ⟨p, rfl, -⟩ | ⟨e, -, raised⟩ | ⟨k, b, more, -, taken⟩ | ⟨b, hd, -, -, accepted⟩ |
    ⟨k, b, more, -, -, taken⟩ | ⟨k, op, -, executed⟩ | ⟨k, more, -, taken⟩ | ⟨k, -, completed⟩ :=
    decoderStep_cases tok s
  · cases kind
  · exact ⟨_, raised⟩
  · exact ⟨_, taken⟩
  · exact ⟨_, accepted⟩
  · exact ⟨_, taken⟩
  · obtain ⟨u, next⟩ := exec_next (bufferedChunk op) s
    rw [executed, next]
    exact commitChunk_of_next op u
  · exact ⟨_, taken⟩
  · exact ⟨_, completed⟩

/-- Settles O59: the invariant bounds the run counter and sorts the tokens of IN. -/
theorem blockNeverFaultsUnderTheInvariant : Obligations.BlockNeverFaultsUnderTheInvariant := by
  intro s inv
  obtain idle | ⟨tok, rest, inq, busy, -, ⟨mode, -, encoder⟩ | ⟨mode, decoder⟩⟩ :=
    blockStep_cases (rfl : blockStep s = _)
  · exact ⟨s, idle⟩
  · have kind := inv.in_kinds busy tok (by simp [inq])
    rw [encoder]
    exact encoderStep_next inv.run_below (mode ▸ kind)
  · have kind := inv.in_kinds busy tok (by simp [inq])
    rw [decoder]
    exact decoderStep_next _ (mode ▸ kind)

end Sys2Proof.Machine
end

section
/-! PROOFS. What the decoder reads from a chunk's first bytes (spec/30_encoding.md R84 to R91), in the arithmetic of
their values: each operand field is a quotient and a remainder of its byte. -/

namespace Sys2Proof

/-- The bit field `b[hi:lo]`, as arithmetic on the byte's value. -/
theorem extractLsb_toNat_eq_div_mod (b : Byte) (hi lo : Nat) :
    (b.extractLsb hi lo).toNat = b.toNat / 2 ^ lo % 2 ^ (hi - lo + 1) := by
  rw [BitVec.extractLsb_toNat, Nat.shiftRight_eq_div_pow]

theorem decode_one_byte {b0 : Byte} (length : chunkLength b0 = 1) :
    decode [b0] = .chunk (decodeChunk b0 0 0 0 0) [] := by
  rw [decode_cons b0 [] (by simp [length]), length]
  rfl

theorem decode_two_bytes {b0 : Byte} (b1 : Byte) (length : chunkLength b0 = 2) :
    decode [b0, b1] = .chunk (decodeChunk b0 b1 0 0 0) [] := by
  rw [decode_cons b0 [b1] (by simp [length]), length]
  rfl

theorem kindOf_diff {b0 : Byte} (lo : 0x40 ≤ b0.toNat) (hi : b0.toNat ≤ 0x7F) : kindOf b0 = .diff := by
  rw [kindOf_eq_by_range, if_neg (by omega), if_neg (by omega), if_neg (by omega), if_pos hi]

theorem kindOf_luma {b0 : Byte} (lo : 0x80 ≤ b0.toNat) (hi : b0.toNat ≤ 0xBF) : kindOf b0 = .luma := by
  rw [kindOf_eq_by_range, if_neg (by omega), if_neg (by omega), if_neg (by omega), if_neg (by omega), if_pos hi]

theorem kindOf_run {b0 : Byte} (lo : 0xC0 ≤ b0.toNat) (hi : b0.toNat ≤ 0xFD) : kindOf b0 = .run := by
  rw [kindOf_eq_by_range, if_neg (by omega), if_neg (by omega), if_neg (by omega), if_neg (by omega),
    if_neg (by omega)]

/-- The three 2-bit fields of a DIFF byte, each biased by 2 (R86). -/
theorem decode_diff {b0 : Byte} (kind : kindOf b0 = .diff) :
    decode [b0] = .chunk (.diff (((b0.toNat / 16 % 4 : Nat) : Int) - 2) (((b0.toNat / 4 % 4 : Nat) : Int) - 2)
      (((b0.toNat % 4 : Nat) : Int) - 2)) [] := by
  rw [decode_one_byte (by rw [chunkLength, kind]; rfl)]
  simp only [decodeChunk, kind, extractLsb_toNat_eq_div_mod, pow_zero, Nat.div_one]
  rfl

/-- The green delta of a LUMA and the two differences from it, biased by 32 and by 8 (R87). -/
theorem decode_luma {b0 : Byte} (b1 : Byte) (kind : kindOf b0 = .luma) :
    decode [b0, b1] = .chunk (.luma
      (((b0.toNat % 64 : Nat) : Int) - 32 + (((b1.toNat / 16 : Nat) : Int) - 8))
      (((b0.toNat % 64 : Nat) : Int) - 32)
      (((b0.toNat % 64 : Nat) : Int) - 32 + (((b1.toNat % 16 : Nat) : Int) - 8))) [] := by
  have highNibble : b1.toNat / 16 % 16 = b1.toNat / 16 := Nat.mod_eq_of_lt (by omega)
  rw [decode_two_bytes b1 (by rw [chunkLength, kind]; rfl), ← highNibble]
  simp only [decodeChunk, kind, extractLsb_toNat_eq_div_mod, pow_zero, Nat.div_one]
  rfl

/-- The 6-bit field of a RUN, biased by 1 (R88). -/
theorem decode_run {b0 : Byte} (kind : kindOf b0 = .run) :
    decode [b0] = .chunk (.run (b0.toNat % 64 + 1)) [] := by
  rw [decode_one_byte (by rw [chunkLength, kind]; rfl)]
  simp only [decodeChunk, kind, extractLsb_toNat_eq_div_mod, pow_zero, Nat.div_one]
  rfl

end Sys2Proof
end

section
/-! PROOFS. The six chunks in a decode job (spec/43_chunk_decode.md): what each does (R171 to R176), and what all
of them leave unchanged (R177 to R179). -/

namespace Sys2Proof.Machine

/-- A RUN within the pixels still owed produces `prev` again, `n` times (R176). -/
theorem exec_run_of_owed {n : Nat} {s : State} (owed : s.pixcnt.toNat + n ≤ s.npix.toNat) :
    exec (.run n) s = .next (pixelsProduced s.prev n s.cache s) := by
  have within : ¬s.npix.toNat < s.pixcnt.toNat + n := by omega
  rw [exec, execRun, if_neg within, emitTimes_eq]
  rfl

theorem exec_run_of_overshoot {n : Nat} {s : State} (overshoot : s.npix.toNat < s.pixcnt.toNat + n) :
    exec (.run n) s = .next (raiseError .pixelCount s) :=
  if_pos overshoot

/-- What a chunk that gives a next state has done, by its kind: it has produced a pixel, just once unless it is a RUN,
and stored it unless it is an INDEX or a RUN; or it is a RUN that raised PIXEL_COUNT. -/
theorem exec_next_cases {i : Instr} {s t : State} (executed : exec i s = .next t) :
    (∃ q n slots, t = pixelsProduced q n slots s ∧ (i.kind ≠ .run → n = 1) ∧
      slots = if i.kind ≠ .index ∧ i.kind ≠ .run then cacheStore s.cache q else s.cache) ∨
    (i.kind = .run ∧ t = raiseError .pixelCount s) := by
  cases i with
  | rgb | rgba | diff | luma =>
    cases executed
    exact .inl ⟨_, 1, cacheStore s.cache _, rfl, fun _ => rfl, rfl⟩
  | index slot =>
    cases executed
    exact .inl ⟨_, 1, s.cache, rfl, fun _ => rfl, rfl⟩
  | run n =>
    by_cases overshoot : s.npix.toNat < s.pixcnt.toNat + n
    · cases (exec_run_of_overshoot overshoot).symm.trans executed
      exact .inr ⟨rfl, rfl⟩
    · cases (exec_run_of_owed (Nat.le_of_not_lt overshoot)).symm.trans executed
      exact .inl ⟨_, n, s.cache, rfl, absurd rfl, rfl⟩

/-! ### The chunks one by one -/

/-- Settles O7: an RGB is read back from its own bytes, and takes its alpha from `prev`. -/
theorem rgbProducesAndStores : Obligations.RgbProducesAndStores :=
  fun r g b _ => ⟨decode_encode (i := .rgb r g b) rfl, rfl⟩

/-- Settles O8: an RGBA is read back from its own bytes, and holds all four channels. -/
theorem rgbaProducesAndStores : Obligations.RgbaProducesAndStores :=
  fun r g b a _ => ⟨decode_encode (i := .rgba r g b a) rfl, rfl⟩

/-- Settles O9: an INDEX is read back from its byte, which is the slot's number. -/
theorem indexLooksUp : Obligations.IndexLooksUp :=
  fun i _ => ⟨encode_index i ▸ decode_encode (i := .index i) rfl, rfl⟩

/-- Settles O10: the byte's range makes it a DIFF, and the pixel is `prev` shifted by the deltas. -/
theorem diffAddsDeltas : Obligations.DiffAddsDeltas :=
  ⟨fun _ lo hi => decode_diff (kindOf_diff lo hi), fun dr dg db s =>
    ⟨shifted s.prev dr dg db, addDelta_toNat _ _, addDelta_toNat _ _, addDelta_toNat _ _, rfl, rfl⟩⟩

/-- Settles O11: the first byte's range makes it a LUMA, and the pixel is `prev` shifted by the deltas. -/
theorem lumaAddsDeltas : Obligations.LumaAddsDeltas :=
  ⟨fun _ c1 lo hi => ⟨_, _, _, decode_luma c1 (kindOf_luma lo hi), rfl, rfl, rfl⟩, fun dr dg db s =>
    ⟨shifted s.prev dr dg db, addDelta_toNat _ _, addDelta_toNat _ _, addDelta_toNat _ _, rfl, rfl⟩⟩

/-- Settles O12: the byte's range makes it a RUN, and a RUN within the pixels owed repeats `prev`. -/
theorem runRepeatsPrevious : Obligations.RunRepeatsPrevious :=
  ⟨fun _ lo hi => decode_run (kindOf_run lo hi), fun _ _ owed => exec_run_of_owed owed⟩

/-! ### What the six chunks have in common -/

/-- Settles O14: a chunk that is not a RUN produces one pixel, a RUN within the pixels owed produces `prev` again. -/
theorem nonRunEmitsOnePixel : Obligations.NonRunEmitsOnePixel := by
  refine ⟨fun i s notRun => ?_, fun n s owed => ⟨_, exec_run_of_owed owed, rfl, rfl, rfl⟩⟩
  obtain ⟨t, executed⟩ := exec_next i s
  obtain ⟨q, n, slots, rfl, one, -⟩ | ⟨isRun, -⟩ := exec_next_cases executed
  · cases one notRun
    exact ⟨_, executed, rfl, rfl⟩
  · exact absurd isRun notRun

/-- Settles O15: producing pixels writes `prev`, the cache, OUT and `pixcnt` only; PIXEL_COUNT, which only a RUN raises,
writes the error's fields and OUT only. -/
theorem chunkFrame : Obligations.ChunkFrame := by
  intro i s t executed
  obtain ⟨q, n, slots, rfl, -⟩ | ⟨isRun, rfl⟩ := exec_next_cases executed
  · simp [pixelsProduced]
  · simp [isRun]

/-- Settles O16: a chunk other than INDEX and RUN stores its pixel, which becomes `prev`, at the pixel's hash. -/
theorem chunkCacheFrame : Obligations.ChunkCacheFrame := by
  intro i s t executed j
  obtain ⟨q, n, slots, rfl, written⟩ | ⟨isRun, rfl⟩ := exec_next_cases executed
  · by_cases stores : i.kind ≠ .index ∧ i.kind ≠ .run
    · rw [if_pos stores] at written
      simp [pixelsProduced, written, cacheLookup_cacheStore, stores]
    · rw [if_neg stores] at written
      simp [pixelsProduced, written, ← and_assoc, stores]
  · simp [isRun]

/-- Settles O18: a chunk's earlier byte is taken by the block's own step, which only buffers and counts it. -/
theorem earlierChunkBytesOnlyBuffer : Obligations.EarlierChunkBytesOnlyBuffer := by
  intro s k b rest unplanned busy mode phase inq room inside
  refine ⟨Nat.lt_of_lt_of_le inside (chunkLength_le_five _), ?_⟩
  have fits : s.out.length + roomNeeded s ≤ Config.outDepth := by rwa [roomNeeded_of_chunk mode phase]
  calc step s = blockStep s := step_unplanned s unplanned
    _ = decoderStep (.byte b) { s with inq := rest } := blockStep_decode s _ rest busy mode inq fits
    _ = chunkStep k (.byte b) { s with inq := rest } :=
      decoderStep_chunk (s := { s with inq := rest }) phase _
    _ = _ := chunkStep_earlier k b { s with inq := rest } inside

/-! ### The delta of a channel -/

theorem sext8_mem_range (v : Byte) : -128 ≤ sext8 v ∧ sext8 v ≤ 127 := by
  unfold sext8
  split <;> omega

/-- A channel's delta is congruent to the difference (R141). -/
theorem channelDelta_modEq (new old : Byte) : channelDelta new old ≡ (new.toNat : Int) - old.toNat [ZMOD 256] :=
  calc channelDelta new old ≡ (wrap8 ((new.toNat : Int) - old.toNat)).toNat [ZMOD 256] := sext8_modEq _
    _ ≡ (new.toNat : Int) - old.toNat [ZMOD 256] := by rw [wrap8_toNat]; exact Int.mod_modEq _ _

/-- Settles O28: the delta is a signed byte congruent to the difference, and adding it gives the new channel back. -/
theorem deltaIsTheSignedDifference : Obligations.DeltaIsTheSignedDifference := by
  intro new old
  obtain ⟨lower, upper⟩ := sext8_mem_range (wrap8 ((new.toNat : Int) - old.toNat))
  have multiple := Int.emod_eq_zero_of_dvd (channelDelta_modEq new old).symm.dvd
  exact ⟨lower, upper, multiple, addDelta_channelDelta new old⟩

end Sys2Proof.Machine
end

section
/-! PROOFS. The encoder driver (spec/44_encoder.md): the run-length front-end case by case (R197, R198), the commit of
a pixel before and at the last one (R200), and the job that EOS cuts short (R199). -/

namespace Sys2Proof.Machine

/-- With no move planned, an encode job that owes pixels and has its room takes the head of IN (R197, R256). -/
theorem step_encode {s : State} {tok : InToken} {rest : List InToken} (unplanned : s.turns = [])
    (busy : s.state = .busy) (mode : s.jobMode = .encode) (owes : s.pixcnt.toNat < s.npix.toNat)
    (inq : s.inq = tok :: rest) (room : s.out.length + 15 ≤ Config.outDepth) :
    step s = encoderStep tok { s with inq := rest } :=
  (step_unplanned s unplanned).trans (blockStep_encode s tok rest busy mode inq room owes)

/-- Settles O36: the encoder's answer to EOS is the error entry and nothing else. -/
theorem eosEndsTheEncodeJob : Obligations.EosEndsTheEncodeJob := by
  intro s rest unplanned busy mode owes inq room
  calc step s = encoderStep .eos { s with inq := rest } := step_encode unplanned busy mode owes inq room
    _ = .next (raiseError .inputShort { s with inq := rest }) := rfl
    _ = _ := rfl

/-! ### The run-length front-end -/

theorem takePixel_absorbs {run : Nat} (prev : Pixel) (slots : Cache) (below : run ≤ 60) :
    takePixel prev slots run false prev = ⟨.ok [], run + 1, slots⟩ := by
  have notFull : run + 1 ≠ 62 := by omega
  simp [takePixel, notFull]

theorem takePixel_flushes {run : Nat} {last : Bool} (prev : Pixel) (slots : Cache) (below : run ≤ 61)
    (ends : run + 1 = 62 ∨ last = true) :
    takePixel prev slots run last prev = ⟨.ok [BitVec.ofNat 8 (0xC0 + run)], 0, slots⟩ := by
  rw [takePixel, if_pos rfl, if_pos ends, fmtRun_ok _ (by omega) (by omega), Nat.add_sub_cancel]

theorem takePixel_of_ne {prev p : Pixel} {cache slots : Cache} {run : Nat} {chunk : List Byte} (last : Bool)
    (below : run ≤ 61) (differs : p ≠ prev) (chosen : encodePixel prev cache p = (.ok chunk, slots)) :
    takePixel prev cache run last p =
      ⟨.ok ((if run = 0 then [] else [BitVec.ofNat 8 (0xC0 + (run - 1))]) ++ chunk), 0, slots⟩ := by
  rw [takePixel, if_neg differs, chosen]
  by_cases idle : run = 0
  · simp [idle, joinBytes]
  · have held : 0 < run := Nat.pos_of_ne_zero idle
    rw [if_pos held, if_neg idle, fmtRun_ok run held (by omega)]
    rfl

/-! ### The pixel's commit -/

section
variable {s : State} {p : Pixel} {bs : List Byte} {r : Nat} {slots : Cache}

theorem encoderStep_pixel_of_not_last (notLast : s.pixcnt ≠ s.npix - 1)
    (taken : takePixel s.prev s.cache s.run.toNat false p = ⟨.ok bs, r, slots⟩) :
    encoderStep (.pixel p) s = .next (encoderCommit p ⟨.ok bs, r, slots⟩ bs s) := by
  have flag : isLastPixel s = false := decide_eq_false notLast
  rw [encoderStep_pixel (flag ▸ taken), flag]
  rfl

theorem encoderStep_pixel_of_last (last : s.pixcnt = s.npix - 1)
    (taken : takePixel s.prev s.cache s.run.toNat true p = ⟨.ok bs, r, slots⟩) :
    encoderStep (.pixel p) s = .next (encoderFinish (encoderCommit p ⟨.ok bs, r, slots⟩ bs s)) := by
  have flag : isLastPixel s = true := decide_eq_true last
  rw [encoderStep_pixel (flag ▸ taken), flag]
  rfl

end

/-- A pixel that leaves no run behind returns the front-end to SCANNING (R197). -/
theorem encoderCommit_without_run (p : Pixel) (bytes : Checked (List Byte)) (slots : Cache) (bs : List Byte)
    (s : State) : encoderCommit p ⟨bytes, 0, slots⟩ bs s = { s with
      prev := p, cache := slots, run := 0, encState := .scanning, pixcnt := s.pixcnt + 1,
      bytecnt := s.bytecnt + BitVec.ofNat 64 bs.length, out := s.out ++ bs.map .byte } := rfl

/-- After such a pixel, the finish of R200 adds the eight bytes of the end marker, and DONE_MARK. -/
theorem encoderFinish_without_run (p : Pixel) (bytes : Checked (List Byte)) (slots : Cache) (bs : List Byte)
    (s : State) : encoderFinish (encoderCommit p ⟨bytes, 0, slots⟩ bs s) = { s with
      prev := p, cache := slots, run := 0, encState := .scanning, pixcnt := s.pixcnt + 1,
      bytecnt := s.bytecnt + BitVec.ofNat 64 (bs.length + 8),
      out := s.out ++ (bs ++ [0, 0, 0, 0, 0, 0, 0, 1]).map .byte ++ [.doneMark], state := .done } := by
  rw [encoderCommit_without_run]
  simp [encoderFinish, completeJob, outBytes, outPush, endMarker, BitVec.ofNat_add, BitVec.add_assoc]

/-- Settles O34: the front-end absorbs the pixel or flushes the run that counts it, and its bytes are committed. -/
theorem equalPixelRunsOn : Obligations.EqualPixelRunsOn := by
  intro s rest unplanned busy mode owes inq room below
  rw [step_encode unplanned busy mode owes inq room]
  refine ⟨fun short notLast => ?_, fun full notLast => ?_, fun last => ?_⟩
  · have taken := takePixel_absorbs s.prev s.cache short
    rw [encoderStep_pixel_of_not_last (s := { s with inq := rest }) notLast taken]
    simp [encoderCommit, outBytes, BitVec.ofNat_add]
  · have taken := takePixel_flushes (last := false) s.prev s.cache below (.inl (by omega))
    rw [encoderStep_pixel_of_not_last (s := { s with inq := rest }) notLast taken, encoderCommit_without_run, full]
    rfl
  · have taken := takePixel_flushes s.prev s.cache below (.inr rfl)
    rw [encoderStep_pixel_of_last (s := { s with inq := rest }) last taken, encoderFinish_without_run]
    simp

/-- Settles O35: the front-end's bytes are the held run's and the chunk's, whether the pixel is the last one or not. -/
theorem differingPixelEndsTheRun : Obligations.DifferingPixelEndsTheRun := by
  rintro s p rest chunk cache bs unplanned busy mode owes inq room below differs chosen rfl
  have taken := fun last => takePixel_of_ne last below differs chosen
  rw [step_encode unplanned busy mode owes inq room]
  refine ⟨fun notLast => ?_, fun last => ?_⟩
  · rw [encoderStep_pixel_of_not_last (s := { s with inq := rest }) notLast (taken false), encoderCommit_without_run]
  · rw [encoderStep_pixel_of_last (s := { s with inq := rest }) last (taken true), encoderFinish_without_run]

end Sys2Proof.Machine
end

section
/-! PROOFS. The decoder driver (spec/45_decoder.md): its step phase by phase (R221 to R227), EOS in each phase (R229),
and what no step of the block changes (spec/10_state.md section 2). -/

namespace Sys2Proof.Machine

/-- With no move planned, a decode job that has its room takes the head of IN (R256). -/
theorem step_decode {s : State} {tok : InToken} {rest : List InToken} (unplanned : s.turns = [])
    (busy : s.state = .busy) (mode : s.jobMode = .decode) (inq : s.inq = tok :: rest)
    (room : s.out.length + roomNeeded s ≤ Config.outDepth) : step s = decoderStep tok { s with inq := rest } :=
  (step_unplanned s unplanned).trans (blockStep_decode s tok rest busy mode inq room)

theorem roomNeeded_of_hdr {s : State} {k : Fin 14} (mode : s.jobMode = .decode) (phase : s.dphase = .hdr k) :
    roomNeeded s = 1 := by
  simp [roomNeeded, mode, phase]

theorem roomNeeded_of_endm {s : State} {k : Fin 8} (mode : s.jobMode = .decode) (phase : s.dphase = .endm k) :
    roomNeeded s = 1 := by
  simp [roomNeeded, mode, phase]

/-! ### The header phase -/

theorem headerStep_earlier {k : Fin 14} (b : Byte) (s : State) (more : k.val + 1 < 14) :
    headerStep k (.byte b) s = .next { s with
      hdrbuf := s.hdrbuf.set k.val b k.isLt, bytecnt := s.bytecnt + 1, dphase := .hdr ⟨k.val + 1, more⟩ } :=
  dif_pos more

theorem headerStep_of_raised {b : Byte} {s : State} {e : ErrCode}
    (decoded : headerDecode (s.hdrbuf.set 13 b) = .raised e) :
    headerStep 13 (.byte b) s = .next (raiseError e s) := by
  simp [headerStep, decoded]

theorem headerStep_of_ok {b : Byte} {s : State} {hd : Header} (decoded : headerDecode (s.hdrbuf.set 13 b) = .ok hd) :
    headerStep 13 (.byte b) s =
      .next (acceptHeader hd { s with hdrbuf := s.hdrbuf.set 13 b, bytecnt := s.bytecnt + 1 }) := by
  simp [headerStep, decoded]

/-- The step of a decode job in its header phase is the header step. -/
theorem step_hdr {s : State} {k : Fin 14} {tok : InToken} {rest : List InToken} (unplanned : s.turns = [])
    (busy : s.state = .busy) (mode : s.jobMode = .decode) (phase : s.dphase = .hdr k) (inq : s.inq = tok :: rest)
    (room : s.out.length < Config.outDepth) : step s = headerStep k tok { s with inq := rest } := by
  have fits : s.out.length + roomNeeded s ≤ Config.outDepth := by rwa [roomNeeded_of_hdr mode phase]
  exact (step_decode unplanned busy mode inq fits).trans (decoderStep_hdr (s := { s with inq := rest }) phase tok)

/-- Settles O19: a header byte before the last is taken unchecked. -/
theorem headerBytesAreCollected : Obligations.HeaderBytesAreCollected := by
  intro s k b rest unplanned busy mode phase inq room below
  have more : k.val + 1 < 14 := by omega
  exact ⟨more, (step_hdr unplanned busy mode phase inq room).trans (headerStep_earlier b _ more)⟩

/-- Settles O20: the last header byte makes the buffer decode to an error or to the header. -/
theorem fourteenthByteChecksHeader : Obligations.FourteenthByteChecksHeader := by
  intro s b rest unplanned busy mode phase inq room
  rw [step_hdr unplanned busy mode phase inq room]
  exact ⟨fun e raised => headerStep_of_raised (s := { s with inq := rest }) raised,
    fun hd accepted => headerStep_of_ok (s := { s with inq := rest }) accepted⟩

/-! ### The chunk phase -/

/-- Settles O13: the check of R225 comes before any pixel. -/
theorem runOvershootIsAnError : Obligations.RunOvershootIsAnError :=
  fun _ _ overshoot => exec_run_of_overshoot overshoot

/-- What the decoder reads from the bytes of `opbuf` is the chunk that the driver runs. -/
theorem bufferedChunk_of_decode {op : Vector Byte 5} {i : Instr} {after : List Byte}
    (decoded : decode op.toList = .chunk i after) : bufferedChunk op = i := by
  rw [opbuf_toList, decode_cons _ _ (chunkLength_le_five op[0])] at decoded
  exact (Decoded.chunk.inj decoded).1

/-- The bit fields of R85 to R88 hold no operand outside its limits: a RUN byte is not 0xFE or 0xFF. -/
theorem wellFormed_decodeChunk (b0 b1 b2 b3 b4 : Byte) : (decodeChunk b0 b1 b2 b3 b4).wellFormed = true := by
  cases kind : kindOf b0 with
  | rgb | rgba | index => simp only [decodeChunk, kind, Instr.wellFormed]
  | diff =>
    simp only [decodeChunk, kind, wellFormed_diff_iff]
    omega
  | luma =>
    simp only [decodeChunk, kind, wellFormed_luma_iff]
    omega
  | run =>
    have field := (run_byte_eq b0 kind).2
    simp only [decodeChunk, kind, wellFormed_run_iff]
    omega

theorem commitChunk_of_busy {t : State} (op : Vector Byte 5) (busy : t.state = .busy) :
    commitChunk op (.next t) =
      .next { t with opbuf := op, bytecnt := t.bytecnt + 1, dphase := phaseAfterChunk t } := by
  simp only [commitChunk, if_pos busy]

theorem commitChunk_of_not_busy {t : State} (op : Vector Byte 5) (ended : t.state ≠ .busy) :
    commitChunk op (.next t) = .next t := by
  simp only [commitChunk, if_neg ended]

/-- A chunk does not count bytes: that is the driver's (R224). -/
theorem exec_bytecnt {i : Instr} {s t : State} (executed : exec i s = .next t) : t.bytecnt = s.bytecnt := by
  obtain ⟨q, n, slots, rfl, -⟩ | ⟨-, rfl⟩ := exec_next_cases executed
  · rfl
  · rfl

/-- Settles O17: the step commits the buffered chunk's execution, and the buffered chunk is the one decoded. -/
theorem stepRunsTheDecodedChunk : Obligations.StepRunsTheDecodedChunk := by
  intro s k b rest ts i after turns busy mode phase inq room whole decoded
  have buffered := bufferedChunk_of_decode decoded
  have fits : s.out.length + roomNeeded s ≤ Config.outDepth := by rwa [roomNeeded_of_chunk mode phase]
  have stepped : step s = commitChunk (s.opbuf.set k.val b k.isLt) (exec i { s with inq := rest, turns := ts }) := by
    calc step s = blockStep { s with turns := ts } := step_block s ts turns
      _ = decoderStep (.byte b) { s with inq := rest, turns := ts } :=
        blockStep_decode { s with turns := ts } _ rest busy mode inq fits
      _ = chunkStep k (.byte b) { s with inq := rest, turns := ts } :=
        decoderStep_chunk (s := { s with inq := rest, turns := ts }) phase _
      _ = _ := buffered ▸ chunkStep_last k b { s with inq := rest, turns := ts } whole
  refine ⟨buffered ▸ wellFormed_decodeChunk _ _ _ _ _, ?_⟩
  obtain ⟨t, executed⟩ := exec_next i { s with inq := rest, turns := ts }
  rw [stepped, executed]
  by_cases running : t.state = .busy
  · rw [commitChunk_of_busy _ running, exec_bytecnt executed]
    simp only [if_pos running]
    rfl
  · rw [commitChunk_of_not_busy _ running]
    simp only [if_neg running]

/-! ### The end-marker phase -/

theorem endMarkerStep_of_ne {k : Fin 8} {b : Byte} (s : State) (differs : b ≠ endMarker.getD k.val 0) :
    endMarkerStep k (.byte b) s = .next (raiseError .endMarker s) :=
  if_pos differs

theorem endMarkerStep_earlier {k : Fin 8} {b : Byte} (s : State) (agrees : b = endMarker.getD k.val 0)
    (more : k.val + 1 < 8) : endMarkerStep k (.byte b) s =
      .next { s with bytecnt := s.bytecnt + 1, dphase := .endm ⟨k.val + 1, more⟩ } :=
  (if_neg (not_not_intro agrees)).trans (dif_pos more)

theorem endMarkerStep_last {k : Fin 8} {b : Byte} (s : State) (agrees : b = endMarker.getD k.val 0)
    (last : k.val = 7) : endMarkerStep k (.byte b) s = .next (completeJob { s with bytecnt := s.bytecnt + 1 }) :=
  (if_neg (not_not_intro agrees)).trans (dif_neg (by omega))

/-- Settles O21: the byte differs from the marker's, or matches it before the last byte or at the last. -/
theorem endMarkerIsChecked : Obligations.EndMarkerIsChecked := by
  intro s k b rest unplanned busy mode phase inq room
  have fits : s.out.length + roomNeeded s ≤ Config.outDepth := by rwa [roomNeeded_of_endm mode phase]
  have stepped : step s = endMarkerStep k (.byte b) { s with inq := rest } :=
    (step_decode unplanned busy mode inq fits).trans (decoderStep_endm (s := { s with inq := rest }) phase _)
  rw [stepped, ← endMarker_getD]
  refine ⟨fun differs => endMarkerStep_of_ne _ differs, fun zero more => ?_, fun one last => ?_⟩
  · have agrees : b = endMarker.getD k.val 0 := by rw [endMarker_getD, if_neg (by omega), zero]
    exact endMarkerStep_earlier _ agrees more
  · have agrees : b = endMarker.getD k.val 0 := by rw [endMarker_getD, if_pos last, one]
    exact endMarkerStep_last _ agrees last

/-! ### EOS -/

/-- The error that EOS is in each phase (R229). -/
def eosError : DPhase → ErrCode
  | .hdr _ => .header
  | .chunk k => if k.val = 0 then .pixels else .chunk
  | .endm _ => .endMarker

theorem decoderStep_eos (s : State) : decoderStep .eos s = .next (raiseError (eosError s.dphase) s) := by
  cases phase : s.dphase with
  | hdr k => exact decoderStep_hdr phase _
  | chunk k => exact decoderStep_chunk phase _
  | endm k => exact decoderStep_endm phase _

/-- Settles O22: EOS is the error entry with the error of the phase. -/
theorem eosEndsTheDecodeJob : Obligations.EosEndsTheDecodeJob := by
  intro s rest unplanned busy mode inq room
  refine ⟨classOf (eosError s.dphase), eosError s.dphase,
    (step_decode unplanned busy mode inq room).trans (decoderStep_eos _), ?_, ?_, ?_, ?_⟩
  · intro k phase
    rw [phase]
    exact ⟨rfl, rfl⟩
  · intro k phase boundary
    rw [phase, eosError, if_pos boundary]
    exact ⟨rfl, rfl⟩
  · intro k phase inside
    rw [phase, eosError, if_neg inside]
    exact ⟨rfl, rfl⟩
  · intro k phase
    rw [phase]
    exact ⟨rfl, rfl⟩

/-! ### The frame of a block step -/

/-- What no block step touches: CTRL, the job's mode and the host's side. -/
def controlSide (s : State) : JobMode × Bool × JobMode × List Turn × List OutToken × List Word32 :=
  (s.ctrlMode, s.ctrlIrqEn, s.jobMode, s.turns, s.popped, s.reads)

/-- What only an accepted header writes: the configuration registers, the pixel count and HDR_VALID (R223). -/
def headerSide (s : State) : Header × Count × Bool := (configHeader s, s.npix, s.hdrValid)

/-- The encoder writes neither, whatever its run counter holds. -/
theorem encoderStep_frame {tok : InToken} {s t : State} (stepped : encoderStep tok s = .next t) :
    controlSide t = controlSide s ∧ headerSide t = headerSide s := by
  cases tok with
  | eos =>
    cases stepped
    exact ⟨rfl, rfl⟩
  | byte b => cases stepped
  | pixel p =>
    obtain ⟨e, raised⟩ | ⟨bs, formatted, -⟩ := takePixel_bytes s.prev s.cache s.run.toNat (isLastPixel s) p
    · simp [encoderStep, raised] at stepped
    · simp only [encoderStep, formatted] at stepped
      cases stepped
      split
      next => exact ⟨rfl, rfl⟩
      next => exact ⟨rfl, rfl⟩

/-- The cases are those of `decoderStep_cases`; only the accepted header writes the header's side. -/
theorem decoderStep_frame {tok : InToken} {s t : State} (stepped : decoderStep tok s = .next t) :
    controlSide t = controlSide s ∧
      (headerSide t = headerSide s ∨ s.dphase = .hdr 13 ∧ t.dphase = .chunk 0) := by
  obtain ⟨p, -, refused⟩ | ⟨e, -, raised⟩ | ⟨k, b, more, -, taken⟩ | ⟨b, hd, phase, -, accepted⟩ |
    ⟨k, b, more, -, -, taken⟩ | ⟨k, op, -, executed⟩ | ⟨k, more, -, taken⟩ | ⟨k, -, completed⟩ :=
    decoderStep_cases tok s
  · cases refused.symm.trans stepped
  · cases raised.symm.trans stepped
    exact ⟨rfl, .inl rfl⟩
  · cases taken.symm.trans stepped
    exact ⟨rfl, .inl rfl⟩
  · cases accepted.symm.trans stepped
    exact ⟨rfl, .inr ⟨phase, rfl⟩⟩
  · cases taken.symm.trans stepped
    exact ⟨rfl, .inl rfl⟩
  · obtain ⟨u, ran, committed⟩ := commitChunk_next (executed.symm.trans stepped)
    obtain ⟨control, header⟩ : controlSide u = controlSide s ∧ headerSide u = headerSide s := by
      obtain ⟨q, n, slots, rfl, -⟩ | ⟨-, rfl⟩ := exec_next_cases ran
      · exact ⟨rfl, rfl⟩
      · exact ⟨rfl, rfl⟩
    obtain ⟨-, rfl⟩ | ⟨-, rfl⟩ := committed
    · exact ⟨control, .inl header⟩
    · exact ⟨control, .inl header⟩
  · cases taken.symm.trans stepped
    exact ⟨rfl, .inl rfl⟩
  · cases completed.symm.trans stepped
    exact ⟨rfl, .inl rfl⟩

/-- A block step writes the header's side only in a decode job that takes its 14th header byte. -/
theorem blockStep_frame {s t : State} (stepped : blockStep s = .next t) :
    controlSide t = controlSide s ∧
      (headerSide t = headerSide s ∨ s.jobMode = .decode ∧ s.dphase = .hdr 13 ∧ t.dphase = .chunk 0) := by
  obtain idle | ⟨tok, rest, -, -, -, ⟨-, -, encoder⟩ | ⟨mode, decoder⟩⟩ := blockStep_cases stepped
  · cases idle
    exact ⟨rfl, .inl rfl⟩
  · obtain ⟨control, header⟩ := encoderStep_frame encoder.symm
    exact ⟨control, .inl header⟩
  · obtain ⟨control, header⟩ := decoderStep_frame decoder.symm
    exact ⟨control, header.imp_right fun accepts => ⟨mode, accepts⟩⟩

/-- Settles O39: the frame of the block's step, field by field. -/
theorem blockStepFrame : Obligations.BlockStepFrame := by
  intro s t stepped
  simpa [controlSide, headerSide, configHeader, and_assoc] using blockStep_frame stepped

end Sys2Proof.Machine
end

section
/-! PROOFS. A decode job that is fed bytes by a host that pops all output (spec/70_reset_and_hazards.md R305): the
fourteen bytes of a header, the bytes of one chunk, and the end marker, each by induction over the bytes to come. -/

namespace Sys2Proof.Machine

/-- The state after the host has popped all of OUT (R255). -/
def drained (s : State) : State := { s with out := [], popped := s.popped ++ s.out }

theorem drain_eq_drained {s : State} (turns : s.turns = []) : drain s = .next (drained s) := drain_eq s turns

theorem drained_of_out_nil {s : State} (out : s.out = []) : drained s = s := by
  simp only [drained, out, List.append_nil]
  rw [← out]

/-- Feeding a list of tokens when the outcome of the first is known. -/
theorem feed_cons_of_next {t : InToken} {ts : List InToken} {s u : State} (fed : feedToken t s = .next u) :
    feed (t :: ts) s = feed ts u := by
  simp only [feed, fed, andThen]

theorem feed_append_of_next {xs : List InToken} {s u : State} (ys : List InToken) (fed : feed xs s = .next u) :
    feed (xs ++ ys) s = feed ys u := by
  simp only [feed_append, fed, andThen]

section
variable {d t : State} {b : Byte} (w : Waiting d) (mode : d.jobMode = .decode)
include w mode

/-- A waiting decode job that is fed a byte takes one decoder step, and the host pops what it pushed. -/
theorem feedToken_byte (stepped : decoderStep (.byte b) d = .next t) (turns : t.turns = []) :
    feedToken (.byte b) d = .next (drained t) := by
  rw [feedToken_decode _ d w mode (by rw [mode]; rfl), stepped]
  exact drain_eq_drained turns

/-- A byte that pushes nothing. -/
theorem feed_quiet_byte (bs : List Byte) (stepped : decoderStep (.byte b) d = .next t) (turns : t.turns = [])
    (out : t.out = []) : feed ((b :: bs).map .byte) d = feed (bs.map .byte) t := by
  apply feed_cons_of_next
  rw [feedToken_byte w mode stepped turns, drained_of_out_nil out]

end

/-- A byte set at place `k` of a buffer extends the part taken so far. -/
theorem take_succ_set {n : Nat} (buf : Vector Byte n) {k : Nat} (b : Byte) (h : k < n) :
    (buf.set k b h).toList.take (k + 1) = buf.toList.take k ++ [b] := by
  rw [Vector.toList_set, List.take_succ_eq_append_getElem (by simpa using h), List.take_set_of_le (Nat.le_refl k),
    List.getElem_set_self]

/-! ### The header -/

/-- The bytes of a legal header, from place `k` on, fill the buffer, and the header is accepted (R221 to R223). -/
theorem feed_headerBytes {hd : Header} (legal : headerCheck hd = .ok hd) (bs : List Byte) :
    ∀ {d : State} {k : Fin 14}, Waiting d → d.jobMode = .decode → d.dphase = .hdr k →
      d.hdrbuf.toList.take k.val ++ bs = headerBytes hd →
      ∃ buf bytes, feed (bs.map .byte) d = .next (acceptHeader hd { d with hdrbuf := buf, bytecnt := bytes }) := by
  induction bs with
  | nil =>
    intro d k w mode phase collected
    have length := congrArg List.length collected
    simp [headerBytes_length] at length
    omega
  | cons b bs ih =>
    intro d k w mode phase collected
    have extended : (d.hdrbuf.set k.val b k.isLt).toList.take (k.val + 1) ++ bs = headerBytes hd := by
      rw [take_succ_set, List.append_assoc]
      exact collected
    by_cases more : k.val + 1 < 14
    · have stepped := (decoderStep_hdr phase (.byte b)).trans (headerStep_earlier b d more)
      rw [feed_quiet_byte w mode bs stepped w.turns w.out]
      exact ih (k := ⟨k.val + 1, more⟩) { w with } mode rfl extended
    · obtain rfl : k = 13 := Fin.ext (by have := k.isLt; simp; omega)
      obtain rfl : bs = [] := by
        have length := congrArg List.length extended
        simp [headerBytes_length] at length
        exact length
      have full : d.hdrbuf.set 13 b = headerVector hd := by
        apply Vector.toList_inj.mp
        rw [toList_headerVector, ← extended, List.append_nil, List.take_of_length_le (by simp)]
        rfl
      have decoded : headerDecode (d.hdrbuf.set 13 b) = .ok hd := by rw [full, headerDecode_headerVector, legal]
      have stepped := (decoderStep_hdr phase (.byte b)).trans (headerStep_of_ok decoded)
      exact ⟨_, _, feed_quiet_byte w mode [] stepped w.turns w.out⟩

/-! ### One chunk -/

theorem chunkLength_statement (i : Instr) : Laws.ChunkLength.Statement i := by
  cases i with
  | rgb r g b => exact Laws.ChunkLength.rgb r g b
  | rgba r g b a => exact Laws.ChunkLength.rgba r g b a
  | index slot => exact Laws.ChunkLength.index slot
  | diff dr dg db => exact Laws.ChunkLength.diff dr dg db
  | luma dr dg db => exact Laws.ChunkLength.luma dr dg db
  | run n => exact Laws.ChunkLength.run n

/-- The first byte of a well-formed chunk gives the number of its bytes (R84, R94). -/
theorem chunkLength_encode {i : Instr} (wf : i.wellFormed = true) :
    chunkLength ((encode i).getD 0 0) = (encode i).length := by
  obtain ⟨-, -, length⟩ := chunkLength_statement i wf
  exact length

theorem encode_ne_nil (i : Instr) : encode i ≠ [] := by
  cases i with
  | rgb | rgba | index | diff | luma | run => exact List.cons_ne_nil _ _

/-- The bytes of a well-formed chunk, from place `k` on, fill the buffer, and the last of them executes the chunk
(R224). -/
theorem feed_chunkBytes {i : Instr} (wf : i.wellFormed = true) (bs : List Byte) :
    ∀ {d u : State} {k : Fin 5}, exec i d = .next u → u.state = .busy → u.turns = [] → Waiting d →
      d.jobMode = .decode → d.dphase = .chunk k → bs ≠ [] → d.opbuf.toList.take k.val ++ bs = encode i →
      ∃ op bytes, feed (bs.map .byte) d =
        .next { drained u with opbuf := op, bytecnt := bytes, dphase := phaseAfterChunk u } := by
  induction bs with
  | nil => exact fun _ _ _ _ _ _ nonempty => absurd rfl nonempty
  | cons b bs ih =>
    intro d u k executed busy turns w mode phase _ collected
    have extended : (d.opbuf.set k.val b k.isLt).toList.take (k.val + 1) ++ bs = encode i := by
      rw [take_succ_set, List.append_assoc]
      exact collected
    have first : (encode i).getD 0 0 = (d.opbuf.set k.val b k.isLt)[0] := by
      rw [← extended, opbuf_toList]
      rfl
    have length : chunkLength (d.opbuf.set k.val b k.isLt)[0] = k.val + 1 + bs.length := by
      rw [← first, chunkLength_encode wf, ← extended]
      simp
    by_cases last : bs = []
    · subst last
      have whole : encode i ++ (d.opbuf.set k.val b k.isLt).toList.drop (k.val + 1) =
          (d.opbuf.set k.val b k.isLt).toList := by
        rw [← extended, List.append_nil, List.take_append_drop]
      have buffered : bufferedChunk (d.opbuf.set k.val b k.isLt) = i :=
        bufferedChunk_of_decode (whole ▸ decode_encode_append wf _)
      have stepped : decoderStep (.byte b) d = .next { u with
          opbuf := d.opbuf.set k.val b k.isLt, bytecnt := u.bytecnt + 1, dphase := phaseAfterChunk u } := by
        rw [decoderStep_chunk phase, chunkStep_last k b d length.le, buffered, executed, commitChunk_of_busy _ busy]
      exact ⟨_, _, feed_cons_of_next (feedToken_byte w mode stepped turns)⟩
    · have rest := List.length_pos_iff.mpr last
      have inside : k.val + 1 < chunkLength (d.opbuf.set k.val b k.isLt)[0] := by omega
      have more : k.val + 1 < 5 := inside.trans_le (chunkLength_le_five _)
      have stepped := (decoderStep_chunk phase (.byte b)).trans (chunkStep_earlier k b d inside)
      rw [feed_quiet_byte w mode bs stepped w.turns w.out]
      have buffering := exec_driver_registers i d u (d.opbuf.set k.val b k.isLt) (d.bytecnt + 1)
        (.chunk ⟨k.val + 1, more⟩) executed
      obtain ⟨op, bytes, fed⟩ := ih buffering busy turns { w with } mode rfl last extended
      exact ⟨op, bytes, fed⟩

/-- A well-formed chunk that produces pixels, fed at a chunk boundary. -/
theorem feed_encode {i : Instr} {d : State} {q : Pixel} {n : Nat} {slots : Cache} (wf : i.wellFormed = true)
    (w : Waiting d) (mode : d.jobMode = .decode) (phase : d.dphase = .chunk 0)
    (executed : exec i d = .next (pixelsProduced q n slots d)) :
    ∃ op bytes, feed ((encode i).map .byte) d = .next { drained (pixelsProduced q n slots d) with
      opbuf := op, bytecnt := bytes, dphase := phaseAfterChunk (pixelsProduced q n slots d) } :=
  feed_chunkBytes wf (encode i) executed w.busy w.turns w mode phase (encode_ne_nil i) rfl

/-! ### The end marker -/

/-- The end marker, from place `k` on, ends the job with DONE_MARK (R227). -/
theorem feed_endMarker (bs : List Byte) :
    ∀ {d : State} {k : Fin 8}, Waiting d → d.jobMode = .decode → d.dphase = .endm k →
      bs = endMarker.drop k.val →
      ∃ bytes, feed (bs.map .byte) d = .next { d with
        bytecnt := bytes, dphase := .endm 7, popped := d.popped ++ [.doneMark], state := .done } := by
  induction bs with
  | nil =>
    intro d k w mode phase remaining
    have length := congrArg List.length remaining
    simp [endMarker] at length
    omega
  | cons b bs ih =>
    intro d k w mode phase remaining
    have within : k.val < endMarker.length := k.isLt
    rw [List.drop_eq_getElem_cons within] at remaining
    obtain ⟨byte, tail⟩ := List.cons.inj remaining
    have agrees : b = endMarker.getD k.val 0 := byte.trans (List.getElem_eq_getD 0)
    by_cases more : k.val + 1 < 8
    · have stepped := (decoderStep_endm phase (.byte b)).trans (endMarkerStep_earlier d agrees more)
      rw [feed_quiet_byte w mode bs stepped w.turns w.out]
      exact ih (k := ⟨k.val + 1, more⟩) { w with } mode rfl tail
    · obtain rfl : k = 7 := Fin.ext (by have := k.isLt; simp; omega)
      obtain rfl : bs = [] := tail
      have stepped := (decoderStep_endm phase (.byte b)).trans (endMarkerStep_last d agrees rfl)
      refine ⟨d.bytecnt + 1, (feed_cons_of_next (feedToken_byte w mode stepped w.turns)).trans ?_⟩
      simp [feed, drained, completeJob, outPush, w.out, ← phase]

end Sys2Proof.Machine
end

section
/-! PROOFS. The round trip of a whole image (spec/45_decoder.md R231). A decode job that is fed the encoder's bytes
follows the encode job: between two pixels it has the same `prev` and cache, and it has produced every pixel the encoder
took but those of the run still held. -/

namespace Sys2Proof.Machine

/-- A decode job of an image with header `hd` that follows an encoder which has taken the pixels `px` and now has this
`prev`, this cache, and a run of this length. -/
structure Follows (hd : Header) (prev : Pixel) (slots : Cache) (run : Nat) (px : List Pixel) (d : State) : Prop where
  waiting : Waiting d
  mode : d.jobMode = .decode
  phase : d.dphase = phaseAfterChunk d
  npix : d.npix = pixelCount hd
  header : configHeader d = hd
  count : d.pixcnt.toNat + run = px.length
  output : d.popped ++ List.replicate run (.pixel prev) = px.map .pixel
  prev : d.prev = prev
  cache : d.cache = slots

section
variable {hd : Header} {prev p : Pixel} {slots : Cache} {run : Nat} {px : List Pixel} {d : State}

/-! ### One pixel, on the decoder's side -/

theorem Follows.phase_of_owes (follows : Follows hd prev slots run px d)
    (owes : d.pixcnt.toNat < (pixelCount hd).toNat) : d.dphase = .chunk 0 := by
  rw [follows.phase]
  refine if_neg fun all => ?_
  rw [all, follows.npix] at owes
  exact owes.false

/-- A pixel equal to `prev` lengthens the run that the encoder holds. -/
theorem Follows.absorb (follows : Follows hd prev slots run px d) :
    Follows hd prev slots (run + 1) (px ++ [prev]) d :=
  { follows with
    count := by
      have count := follows.count
      simp
      omega
    output := by rw [List.replicate_succ', ← List.append_assoc, follows.output, List.map_append]; rfl }

/-- A chunk that makes the decoder produce what the encoder has taken since. -/
theorem Follows.chunk {i : Instr} {q : Pixel} {n : Nat} {slots' : Cache} {px' : List Pixel}
    (follows : Follows hd prev slots run px d) (wf : i.wellFormed = true) (nonempty : 1 ≤ n)
    (count : d.pixcnt.toNat + n = px'.length) (within : px'.length ≤ (pixelCount hd).toNat)
    (output : d.popped ++ List.replicate n (.pixel q) = px'.map .pixel)
    (executed : exec i d = .next (pixelsProduced q n slots' d)) :
    ∃ d', feed ((encode i).map .byte) d = .next d' ∧ Follows hd q slots' 0 px' d' := by
  have phase := follows.phase_of_owes (by omega)
  have counted : (d.pixcnt + BitVec.ofNat 64 n).toNat = d.pixcnt.toNat + n := count_add (count ▸ within)
  obtain ⟨op, bytes, fed⟩ := feed_encode wf follows.waiting follows.mode phase executed
  exact ⟨_, fed, {
    waiting := { follows.waiting with out := rfl }
    mode := follows.mode
    phase := rfl
    npix := follows.npix
    header := follows.header
    prev := rfl
    cache := rfl
    count := counted.trans count
    output := by simpa [drained, pixelsProduced, follows.waiting.out] using output }⟩

/-- The bytes of a run that the encoder holds. -/
def heldRun (run : Nat) : List Byte := if run = 0 then [] else [BitVec.ofNat 8 (0xC0 + (run - 1))]

/-- Flushing the held run makes the decoder produce its pixels. -/
theorem Follows.flush (follows : Follows hd prev slots run px d) (atMost : run ≤ 62)
    (within : px.length ≤ (pixelCount hd).toNat) :
    ∃ d', feed ((heldRun run).map .byte) d = .next d' ∧ Follows hd prev slots 0 px d' := by
  by_cases idle : run = 0
  · subst idle
    exact ⟨d, rfl, follows⟩
  · have executed := exec_run_of_owed (n := run) (s := d) (by rw [follows.count, follows.npix]; exact within)
    rw [follows.prev, follows.cache] at executed
    rw [heldRun, if_neg idle, ← encode_run atMost]
    exact follows.chunk (wellFormed_run_iff.mpr ⟨Nat.pos_of_ne_zero idle, atMost⟩) (Nat.pos_of_ne_zero idle)
      follows.count within follows.output executed

/-- EncodePixel's chunk makes the decoder produce the pixel, and write its cache as the encoder does (R154). -/
theorem encodePixel_lockStep (s : State) (p : Pixel) :
    ∃ (i : Instr) (slots : Cache), encodePixel s.prev s.cache p = (.ok (encode i), slots) ∧ i.wellFormed = true ∧
      exec i s = .next (pixelsProduced p 1 slots s) := by
  by_cases hit : cacheLookup s.cache (hash p) = p
  · exact ⟨.index (hash p), s.cache, encodePixel_hit s.prev hit, rfl, exec_index_of_hit hit⟩
  · obtain ⟨i, bytes, wf, -, executed⟩ := encodeMiss_lockStep s p
    exact ⟨i, cacheStore s.cache p, by rw [encodePixel_miss s.prev hit, bytes], wf, executed⟩

/-- Whatever bytes the front-end makes of a pixel, feeding them lets the decoder follow. -/
theorem Follows.pixelTaken (follows : Follows hd prev slots run px d) (below : run < 62)
    (owes : px.length < (pixelCount hd).toNat) (last : Bool) (p : Pixel) :
    ∃ (bs : List Byte) (r : Nat) (slots' : Cache) (d' : State),
      takePixel prev slots run last p = ⟨.ok bs, r, slots'⟩ ∧ r < 62 ∧ (last = true → r = 0) ∧
      feed (bs.map .byte) d = .next d' ∧ Follows hd p slots' r (px ++ [p]) d' := by
  have within : (px ++ [p]).length ≤ (pixelCount hd).toNat := by simpa using owes
  by_cases same : p = prev
  · subst same
    by_cases ends : run + 1 = 62 ∨ last = true
    · obtain ⟨d', fed, follows'⟩ := follows.absorb.flush below within
      exact ⟨_, 0, slots, d', takePixel_flushes p slots (Nat.le_of_lt_succ below) ends, by decide, fun _ => rfl, fed,
        follows'⟩
    · obtain ⟨notFull, rfl⟩ : run + 1 ≠ 62 ∧ last = false := by simpa using ends
      exact ⟨[], run + 1, slots, d, takePixel_absorbs p slots (by omega), by omega, nofun, rfl, follows.absorb⟩
  · obtain ⟨d₁, flushed, follows₁⟩ := follows.flush below.le owes.le
    obtain ⟨i, slots', chosen, wf, executed⟩ := encodePixel_lockStep d₁ p
    rw [follows₁.prev, follows₁.cache] at chosen
    have noRun : d₁.popped = px.map .pixel := by simpa using follows₁.output
    obtain ⟨d', fed, follows'⟩ := follows₁.chunk (px' := px ++ [p]) wf le_rfl
      (by have count := follows₁.count; simp; omega) within (by rw [noRun, List.map_append]; rfl) executed
    refine ⟨heldRun run ++ encode i, 0, slots', d', takePixel_of_ne last (Nat.le_of_lt_succ below) same chosen,
      by decide, fun _ => rfl, ?_, follows'⟩
    rw [List.map_append, feed_append_of_next _ flushed, fed]

/-- After the last pixel the end marker completes the decode job (R226 to R228). -/
theorem Follows.finish (follows : Follows hd prev slots 0 px d) (all : px.length = (pixelCount hd).toNat) :
    ∃ d', feed (endMarker.map .byte) d = .next d' ∧ d'.state = .done ∧
      d'.popped = px.map .pixel ++ [.doneMark] ∧ configHeader d' = hd := by
  have counted : d.pixcnt = d.npix := by
    apply BitVec.eq_of_toNat_eq
    rw [follows.npix, ← all]
    exact follows.count
  have phase : d.dphase = .endm 0 := follows.phase.trans (if_pos counted)
  have produced : d.popped = px.map .pixel := by simpa using follows.output
  obtain ⟨bytes, fed⟩ := feed_endMarker endMarker follows.waiting follows.mode phase rfl
  exact ⟨_, fed, rfl, by rw [produced], follows.header⟩

end

/-! ### One pixel, on the encoder's side -/

/-- An encode job of an image with header `hd` that has taken the pixels `px` and waits for the next. -/
structure Encoding (hd : Header) (px : List Pixel) (e : State) : Prop where
  waiting : Waiting e
  mode : e.jobMode = .encode
  npix : e.npix = pixelCount hd
  count : e.pixcnt.toNat = px.length
  run_below : e.run.toNat < 62

section
variable {hd : Header} {px : List Pixel} {e : State} {p : Pixel} {bs : List Byte} {r : Nat} {slots : Cache}

theorem Encoding.owes (encoding : Encoding hd px e) (more : px.length < (pixelCount hd).toNat) :
    e.pixcnt.toNat < e.npix.toNat := by
  rwa [encoding.count, encoding.npix]

theorem Encoding.feedToken_pixel (encoding : Encoding hd px e) (more : px.length < (pixelCount hd).toNat) :
    feedToken (.pixel p) e = andThen (encoderStep (.pixel p) e) drain :=
  feedToken_encode _ e encoding.waiting encoding.mode (by rw [encoding.mode]; rfl) (encoding.owes more)

/-- A pixel before the last leaves the job waiting for the next. -/
theorem Encoding.feedToken_of_not_last (encoding : Encoding hd px e)
    (notLast : px.length + 1 < (pixelCount hd).toNat) (below : r < 62)
    (taken : takePixel e.prev e.cache e.run.toNat false p = ⟨.ok bs, r, slots⟩) :
    ∃ e', feedToken (.pixel p) e = .next e' ∧ Encoding hd (px ++ [p]) e' ∧ e'.prev = p ∧ e'.cache = slots ∧
      e'.run.toNat = r ∧ e'.popped = e.popped ++ bs.map .byte := by
  have more := Nat.lt_of_succ_lt notLast
  have flag : isLastPixel e = false := by
    rw [Bool.eq_false_iff, Ne, isLastPixel_iff (encoding.owes more), encoding.count, encoding.npix]
    exact notLast.ne
  have run : (BitVec.ofNat 6 r).toNat = r := by simp; omega
  have pushed : (encoderCommit p ⟨.ok bs, r, slots⟩ bs e).out = bs.map .byte := by simp [encoding.waiting.out]
  refine ⟨drained (encoderCommit p ⟨.ok bs, r, slots⟩ bs e), ?_, ?_, rfl, rfl, run,
    congrArg (e.popped ++ ·) pushed⟩
  · rw [encoding.feedToken_pixel more, encoderStep_pixel (flag ▸ taken), flag]
    exact drain_eq_drained encoding.waiting.turns
  · exact {
      waiting := { encoding.waiting with out := rfl }
      mode := encoding.mode
      npix := encoding.npix
      count := by
        rw [List.length_append, ← encoding.count]
        exact count_succ _ _ (encoding.owes more)
      run_below := run.trans_lt below }

/-- The last pixel ends the job: the end marker and DONE_MARK follow its bytes (R200). -/
theorem Encoding.feedToken_of_last (encoding : Encoding hd px e) (last : px.length + 1 = (pixelCount hd).toNat)
    (taken : takePixel e.prev e.cache e.run.toNat true p = ⟨.ok bs, r, slots⟩) :
    ∃ e', feedToken (.pixel p) e = .next e' ∧ e'.state = .done ∧
      e'.popped = e.popped ++ (bs ++ endMarker).map .byte ++ [.doneMark] := by
  have more := Nat.lt_of_succ_le last.le
  have flag : isLastPixel e = true := by
    rw [isLastPixel_iff (encoding.owes more), encoding.count, encoding.npix]
    exact last
  have pushed : (encoderFinish (encoderCommit p ⟨.ok bs, r, slots⟩ bs e)).out =
      (bs ++ endMarker).map .byte ++ [.doneMark] := by
    simp [encoding.waiting.out]
  refine ⟨drained (encoderFinish (encoderCommit p ⟨.ok bs, r, slots⟩ bs e)), ?_, rfl,
    (congrArg (e.popped ++ ·) pushed).trans (List.append_assoc _ _ _).symm⟩
  rw [encoding.feedToken_pixel more, encoderStep_pixel (flag ▸ taken), flag]
  exact drain_eq_drained encoding.waiting.turns

end

/-! ### All pixels -/

/-- Feeding the encoder the pixels still owed gives bytes that make the decoder which follows it produce all pixels. -/
theorem feed_pixels_roundTrip {hd : Header} (rest : List Pixel) :
    ∀ {px : List Pixel} {e d : State}, Encoding hd px e → Follows hd e.prev e.cache e.run.toNat px d →
      rest ≠ [] → px.length + rest.length = (pixelCount hd).toNat →
      ∃ (bs : List Byte) (e' d' : State),
        feed (rest.map .pixel) e = .next e' ∧ e'.state = .done ∧
        e'.popped = e.popped ++ bs.map .byte ++ [.doneMark] ∧
        feed (bs.map .byte) d = .next d' ∧ d'.state = .done ∧
        d'.popped = (px ++ rest).map .pixel ++ [.doneMark] ∧ configHeader d' = hd := by
  induction rest with
  | nil => exact fun _ _ nonempty => absurd rfl nonempty
  | cons p rest ih =>
    intro px e d encoding follows _ total
    rw [List.length_cons] at total
    have pixelTaken := fun last => follows.pixelTaken encoding.run_below (by omega) last p
    by_cases last : rest = []
    · subst last
      obtain ⟨bs, r, slots, d₁, taken, -, noRun, fed, follows₁⟩ := pixelTaken true
      obtain rfl := noRun rfl
      obtain ⟨e', encoded, done, bytes⟩ := encoding.feedToken_of_last total taken
      obtain ⟨d', finished, decoded⟩ := follows₁.finish (by rw [← total]; simp)
      refine ⟨bs ++ endMarker, e', d', feed_cons_of_next encoded, done, bytes, ?_, decoded⟩
      rw [List.map_append, feed_append_of_next _ fed, finished]
    · have owed := List.length_pos_iff.mpr last
      obtain ⟨bs, r, slots, d₁, taken, below, -, fed, follows₁⟩ := pixelTaken false
      obtain ⟨e₁, encoded, encoding₁, rfl, rfl, rfl, bytes⟩ :=
        encoding.feedToken_of_not_last (by omega) below taken
      obtain ⟨bs', e', d', encoded', done, bytes', fed', decoded⟩ :=
        ih encoding₁ follows₁ last (by simp; omega)
      refine ⟨bs ++ bs', e', d', (feed_cons_of_next encoded).trans encoded', done, ?_, ?_, ?_⟩
      · rw [bytes', bytes]
        simp
      · rw [List.map_append, feed_append_of_next _ fed, fed']
      · simpa using decoded

/-! ### The two sessions -/

/-- Data tokens followed by DONE_MARK are a valid output (spec/46_control.md R258). -/
theorem validOutput_of_done {data : List OutToken} (isData : ∀ t ∈ data, isTerminal t = false) :
    validOutput (data ++ [.doneMark]) = some data := by
  have kept : ∀ t ∈ data, (!isTerminal t) = true := fun t member => by rw [isData t member]; rfl
  have taken : (data ++ [OutToken.doneMark]).takeWhile (fun t => !isTerminal t) = data := by
    rw [List.takeWhile_append_of_pos kept]
    simp [isTerminal]
  have dropped : (data ++ [OutToken.doneMark]).dropWhile (fun t => !isTerminal t) = [.doneMark] := by
    rw [List.dropWhile_append_of_pos kept]
    simp [isTerminal]
  simp only [validOutput, jobResult, taken, dropped]

theorem validOutput_bytes (bs : List Byte) : validOutput (bs.map .byte ++ [.doneMark]) = some (bs.map .byte) :=
  validOutput_of_done (by simp [isTerminal])

theorem validOutput_pixels (px : List Pixel) : validOutput (px.map .pixel ++ [.doneMark]) = some (px.map .pixel) :=
  validOutput_of_done (by simp [isTerminal])

/-- The state that the host's four configuration writes leave (R250). -/
def configured (hd : Header) (s : State) : State :=
  { s with
    turns := [], width := hd.width, height := hd.height, channels := hd.channels, colorspace := hd.colorspace }

/-- The initialisation of an encode job by a START that clears IRQ_EN (R252). -/
def encodeInit (hd : Header) (s : State) : State :=
  jobInit { configured hd s with ctrlMode := .encode, ctrlIrqEn := false }

/-- An encode job of a legal header that has just started: the header is pushed (R196). -/
def encodeStarted (hd : Header) (s : State) : State :=
  { encodeInit hd s with
    npix := pixelCount hd, out := (headerBytes hd).map .byte, bytecnt := 14, hdrValid := true }

/-- A decode job that has just started (R252). -/
def decodeStarted (s : State) : State :=
  jobInit { s with turns := [], ctrlMode := .decode, ctrlIrqEn := false }

theorem extractLsb_byte (b : Byte) : b.extractLsb 7 0 = b := BitVec.extractLsb'_eq_self

theorem moves_configure (hd : Header) (ms : List Turn) {s : State} (notBusy : s.state ≠ .busy) :
    moves (.host (.write 4 0x08 hd.width) :: .host (.write 4 0x0C hd.height) ::
      .host (.write 4 0x10 (hd.channels.setWidth 32)) :: .host (.write 4 0x14 (hd.colorspace.setWidth 32)) :: ms) s =
      moves ms (configured hd s) := by
  simp [moves, move_host, hostMove, legalAccess, hostWrite, andThen, notBusy, extractLsb_byte, configured]

/-- A CTRL write with START from a state that is not BUSY (R252). -/
theorem moves_start (v : Word32) {s : State} (start : v.getLsbD 0 = true) (notBusy : s.state ≠ .busy) :
    moves [.host (.write 4 0x00 v)] s =
      .next (startJob { s with turns := [], ctrlMode := modeOf (v.getLsbD 1), ctrlIrqEn := v.getLsbD 3 }) :=
  congrArg Host.Outcome.next (writeCtrl_start v { s with turns := [] } start notBusy)

theorem encodeSession_eq {hd : Header} (legal : headerCheck hd = .ok hd) (px : List Pixel) {s : State}
    (notBusy : s.state ≠ .busy) :
    encodeSession hd px s = feed (px.map .pixel) (drained (encodeStarted hd s)) := by
  have headerPushed : encoderStart (encodeInit hd s) = encodeStarted hd s :=
    encoderStart_ok (s := encodeInit hd s) (headerEncode_of_ok legal)
  have started : moves [.host (.write 4 0x00 0x00000001#32)] (configured hd s) = .next (encodeStarted hd s) :=
    (moves_start 0x00000001#32 (s := configured hd s) rfl notBusy).trans (congrArg Host.Outcome.next headerPushed)
  rw [encodeSession, moves_configure hd _ notBusy, started]
  simp only [andThen]
  rw [drain_eq_drained rfl]

theorem decodeSession_eq (bs : List Byte) {s : State} (notBusy : s.state ≠ .busy) :
    decodeSession bs s = feed (bs.map .byte) (decodeStarted s) := by
  have started : moves [.host (.write 4 0x00 0x00000003#32)] s = .next (decodeStarted s) := moves_start _ rfl notBusy
  rw [decodeSession, started]
  rfl

theorem encoding_encodeStarted (hd : Header) (s : State) : Encoding hd [] (drained (encodeStarted hd s)) where
  waiting := ⟨rfl, rfl, rfl, rfl⟩
  mode := rfl
  npix := rfl
  count := rfl
  run_below := Nat.succ_pos 61

/-- A decode job that has taken the header follows an encode job that has pushed it (R154: `prev` and the cache start
alike). -/
theorem follows_decodeStarted {hd : Header} (legal : headerCheck hd = .ok hd) (s : State) :
    ∃ d, feed ((headerBytes hd).map .byte) (decodeStarted s) = .next d ∧
      Follows hd startPixel (Vector.replicate 64 zeroPixel) 0 [] d := by
  obtain ⟨buf, bytes, fed⟩ :=
    feed_headerBytes legal (headerBytes hd) (d := decodeStarted s) ⟨rfl, rfl, rfl, rfl⟩ rfl rfl rfl
  exact ⟨_, fed, {
    waiting := ⟨rfl, rfl, rfl, rfl⟩
    mode := rfl
    phase := (if_neg (pixelCount_ne_zero legal).symm).symm
    npix := rfl
    header := rfl
    prev := rfl
    cache := rfl
    count := rfl
    output := rfl }⟩

/-- Settles O60: the decode job takes the header that the encode job has pushed, and then follows it pixel by pixel. -/
theorem imageRoundTrip : Obligations.ImageRoundTrip := by
  intro hd px s0 s1 legal total notBusy0 notBusy1
  obtain ⟨count, positive, -⟩ := pixelCount_of_legal legal
  have nonempty : px ≠ [] := List.length_pos_iff.mp (total ▸ positive)
  obtain ⟨d₀, headerFed, follows⟩ := follows_decodeStarted legal s1
  obtain ⟨bs, e, d, encoded, encodeDone, bytes, decoded, decodeDone, pixels, rfl⟩ :=
    feed_pixels_roundTrip px (encoding_encodeStarted hd s0) follows nonempty (by simp [total, count])
  refine ⟨e, d, headerBytes (configHeader d) ++ bs, (encodeSession_eq legal px notBusy0).trans encoded, encodeDone,
    ?_, ?_, decodeDone, ?_, rfl, rfl, rfl, rfl⟩
  · rw [bytes, ← validOutput_bytes, List.map_append]
    rfl
  · rw [decodeSession_eq _ notBusy1, List.map_append, feed_append_of_next _ headerFed, decoded]
  · rw [pixels]
    exact validOutput_pixels px

end Sys2Proof.Machine
end

section
/-! PROOFS. What a step of the block pushes (spec/46_control.md R256): the places of OUT that each driver's step fills,
and when there is no step. -/

namespace Sys2Proof.Machine

/-- Settles O37: each of the four reasons contradicts one of the conditions under which the block's step fires. -/
theorem noStepUnlessEnabled : Obligations.NoStepUnlessEnabled := by
  intro s disabled
  obtain idle | ⟨tok, rest, inq, busy, room, job⟩ := blockStep_cases (rfl : blockStep s = _)
  · exact idle
  · obtain notBusy | empty | noRoom | ⟨encode, taken⟩ := disabled
    · exact absurd busy notBusy
    · cases inq.symm.trans empty
    · exact absurd room (Nat.not_le_of_lt noRoom)
    · obtain ⟨-, owes, -⟩ | ⟨decode, -⟩ := job
      · exact absurd owes (Nat.not_lt_of_le taken)
      · cases encode.symm.trans decode

/-- `t` is reached from `s` by pushing at most `n` tokens to OUT, with IN left alone. -/
def PushesAtMost (n : Nat) (s t : State) : Prop :=
  t.inq = s.inq ∧ ∃ ts, t.out = s.out ++ ts ∧ ts.length ≤ n

theorem pushesAtMost_of_quiet {s t : State} (n : Nat) (inq : t.inq = s.inq) (out : t.out = s.out) :
    PushesAtMost n s t :=
  ⟨inq, [], by rw [out, List.append_nil], Nat.zero_le n⟩

theorem pushesAtMost_of_one {s t : State} {n : Nat} {token : OutToken} (room : 1 ≤ n) (inq : t.inq = s.inq)
    (out : t.out = s.out ++ [token]) : PushesAtMost n s t :=
  ⟨inq, [token], out, room⟩

/-! ### The encoder -/

/-- A pixel's bytes are at most 6, the end marker's 8, and DONE_MARK is one more: the 15 of R256. -/
theorem encoderStep_pushes {tok : InToken} {s t : State} (stepped : encoderStep tok s = .next t) :
    PushesAtMost 15 s t := by
  cases tok with
  | eos =>
    cases stepped
    exact pushesAtMost_of_one (by decide) rfl rfl
  | byte b => cases stepped
  | pixel p =>
    obtain ⟨e, raised⟩ | ⟨bs, formatted, length⟩ := takePixel_bytes s.prev s.cache s.run.toNat (isLastPixel s) p
    · simp [encoderStep, raised] at stepped
    · simp only [encoderStep, formatted] at stepped
      cases stepped
      split
      next =>
        refine ⟨rfl, (bs ++ endMarker).map .byte ++ [.doneMark], by simp, ?_⟩
        simp [endMarker]
        omega
      next => exact ⟨rfl, bs.map .byte, rfl, by simp; omega⟩

/-! ### The decoder -/

/-- The chunk in the buffer produces at most the 62 pixels of the longest RUN, in whatever state it runs. -/
theorem exec_bufferedChunk_pushes {op : Vector Byte 5} {s t : State}
    (executed : exec (bufferedChunk op) s = .next t) : PushesAtMost 62 s t := by
  obtain ⟨q, stored⟩ | ⟨j, -, indexed⟩ | ⟨n, isRun, -, ran⟩ | ⟨n, -, -, raised⟩ := exec_cases (bufferedChunk op) s
  · cases stored.symm.trans executed
    exact pushesAtMost_of_one (by decide) rfl rfl
  · cases indexed.symm.trans executed
    exact pushesAtMost_of_one (by decide) rfl rfl
  · rw [emitTimes_eq] at ran
    cases ran.symm.trans executed
    exact ⟨rfl, List.replicate n (.pixel s.prev), rfl, by simpa using (bufferedChunk_run isRun).2⟩
  · cases raised.symm.trans executed
    exact pushesAtMost_of_one (by decide) rfl rfl

/-- The cases are those of `decoderStep_cases`; only an executed chunk pushes more than one token. -/
theorem decoderStep_pushes {tok : InToken} {s t : State} (mode : s.jobMode = .decode)
    (stepped : decoderStep tok s = .next t) : PushesAtMost (roomNeeded s) s t := by
  obtain ⟨p, -, refused⟩ | ⟨e, -, raised⟩ | ⟨k, b, more, -, taken⟩ | ⟨b, hd, -, -, accepted⟩ |
    ⟨k, b, more, -, -, taken⟩ | ⟨k, op, phase, executed⟩ | ⟨k, more, -, taken⟩ | ⟨k, -, completed⟩ :=
    decoderStep_cases tok s
  · cases refused.symm.trans stepped
  · cases raised.symm.trans stepped
    exact pushesAtMost_of_one (roomNeeded_pos s) rfl rfl
  · cases taken.symm.trans stepped
    exact pushesAtMost_of_quiet _ rfl rfl
  · cases accepted.symm.trans stepped
    exact pushesAtMost_of_quiet _ rfl rfl
  · cases taken.symm.trans stepped
    exact pushesAtMost_of_quiet _ rfl rfl
  · obtain ⟨u, ran, committed⟩ := commitChunk_next (executed.symm.trans stepped)
    have pushes : PushesAtMost 62 s u := exec_bufferedChunk_pushes ran
    rw [roomNeeded_of_chunk mode phase]
    obtain ⟨-, rfl⟩ | ⟨-, rfl⟩ := committed
    · exact pushes
    · exact pushes
  · cases taken.symm.trans stepped
    exact pushesAtMost_of_quiet _ rfl rfl
  · cases completed.symm.trans stepped
    exact pushesAtMost_of_one (roomNeeded_pos s) rfl rfl

/-! ### The block's step -/

theorem roomNeeded_of_encode {s : State} (mode : s.jobMode = .encode) : roomNeeded s = 15 := by
  simp only [roomNeeded, mode]

/-- Settles O38: the block pops the head of IN for the job's step, which leaves the rest of IN alone and pushes at most
ROOM tokens. -/
theorem blockStepFitsItsRoom : Obligations.BlockStepFitsItsRoom := by
  intro s t stepped
  obtain idle | ⟨tok, rest, inq, -, -, job⟩ := blockStep_cases stepped
  · cases idle
    exact ⟨.inl rfl, [], (List.append_nil _).symm, Nat.zero_le _⟩
  · obtain ⟨popped, pushed⟩ : PushesAtMost (roomNeeded s) { s with inq := rest } t := by
      obtain ⟨mode, -, encoder⟩ | ⟨mode, decoder⟩ := job
      · rw [roomNeeded_of_encode mode]
        exact encoderStep_pushes encoder.symm
      · exact decoderStep_pushes mode decoder.symm
    exact ⟨.inr ⟨tok, popped ▸ inq⟩, pushed⟩

end Sys2Proof.Machine
end

section
/-! PROOFS. The host's operations (spec/46_control.md): START (R252), the CTRL writes that start nothing (R253), the
other register writes and the reads (R250, R251), push and pop (R254, R255). -/

namespace Sys2Proof.Machine

/-! ### Register accesses -/

section
variable {off : Nat} (aligned : off % 4 = 0) (inWindow : off < 0x100)
include aligned inWindow

theorem legalAccess_word : legalAccess 4 off = true :=
  decide_eq_true ⟨rfl, aligned, inWindow⟩

theorem move_write (v : Word32) (s : State) :
    move (.host (.write 4 off v)) s = .next (hostWrite off v { s with turns := [] }) :=
  if_pos (legalAccess_word aligned inWindow)

theorem move_read (s : State) :
    move (.host (.read 4 off)) s = .next { s with turns := [], reads := s.reads ++ [hostRead off s] } :=
  if_pos (legalAccess_word aligned inWindow)

end

/-! ### START -/

/-- A START from a state that is not BUSY (R252). -/
theorem move_start {v : Word32} {s : State} (start : v.getLsbD 0 = true) (notBusy : s.state ≠ .busy) :
    move (.host (.write 4 0x00 v)) s =
      .next (startJob { s with turns := [], ctrlMode := modeOf (v.getLsbD 1), ctrlIrqEn := v.getLsbD 3 }) :=
  (move_write rfl (by decide) v s).trans
    (congrArg Host.Outcome.next (writeCtrl_start v { s with turns := [] } start notBusy))

/-- Settles O44: a decode START is the common initialisation. -/
theorem decodeStartInitialises : Obligations.DecodeStartInitialises := by
  intro v s start decode notBusy
  rw [move_start start notBusy, decode]
  rfl

/-- Settles O45: after the common initialisation the encoder start pushes the header's bytes, or raises the error of the
check, which is a FormatError; the product of two legal dimensions fits `npix`. -/
theorem encodeStartPushesTheHeader : Obligations.EncodeStartPushesTheHeader := by
  intro v s start encode notBusy
  rw [move_start start notBusy, encode]
  refine ⟨fun hb legal => ?_, fun e illegal => ?_⟩
  · refine ⟨pixelCount (configHeader s), (pixelCount_of_legal (headerEncode_ok legal).1).1, ?_⟩
    exact congrArg Host.Outcome.next (encoderStart_ok (s := jobInit _) legal)
  · have isFormat : classOf e = .format := (headerCheck_raised (headerEncode_raised illegal)).1
    rw [← isFormat]
    exact congrArg Host.Outcome.next (encoderStart_raised (s := jobInit _) illegal)

/-! ### CTRL writes that start no job -/

theorem ackJob_of_ended {s : State} (ended : s.state = .done ∨ s.state = .error) :
    ackJob s = { s with state := .idle } := by
  rw [ackJob_eq, if_pos ended]

theorem ackJob_of_not_ended {s : State} (notEnded : s.state = .idle ∨ s.state = .busy) : ackJob s = s := by
  rw [ackJob_eq, if_neg]
  obtain idle | busy := notEnded
  · simp [idle]
  · simp [busy]

/-- Settles O47: a CTRL write that starts no job writes MODE and IRQ_EN, and then is an ACK or is over. -/
theorem ackReturnsToIdle : Obligations.AckReturnsToIdle := by
  intro v s noStart
  have written : hostWrite 0x00 v s = _ := writeCtrl_no_start v s noStart
  rw [written]
  refine ⟨fun ack ended => ?_, fun ack notEnded => ?_, fun noAck => ?_⟩
  · rw [if_pos ack]
    exact ackJob_of_ended ended
  · rw [if_pos ack]
    exact ackJob_of_not_ended notEnded
  · rw [if_neg (ne_true_of_eq_false noAck)]

/-! ### The other registers -/

theorem extractLsb_low_byte (v : Word32) : v.extractLsb 7 0 = BitVec.ofNat 8 v.toNat := rfl

/-- A running job ignores the write; otherwise the offset decides which register takes the value (R250). -/
theorem hostWrite_of_ne_ctrl {off : Nat} (notCtrl : off ≠ 0) (v : Word32) (s : State) :
    hostWrite off v s = { s with
      width := if off = 0x08 ∧ s.state ≠ .busy then v else s.width
      height := if off = 0x0C ∧ s.state ≠ .busy then v else s.height
      channels := if off = 0x10 ∧ s.state ≠ .busy then BitVec.ofNat 8 v.toNat else s.channels
      colorspace := if off = 0x14 ∧ s.state ≠ .busy then BitVec.ofNat 8 v.toNat else s.colorspace } := by
  by_cases busy : s.state = .busy
  · rw [hostWrite, if_neg notCtrl, if_pos busy]
    simp only [not_not_intro busy, and_false, if_false]
  by_cases width : off = 0x08
  · simp [hostWrite, busy, width]
  by_cases height : off = 0x0C
  · simp [hostWrite, busy, height]
  by_cases channels : off = 0x10
  · simp [hostWrite, busy, channels, extractLsb_low_byte]
  by_cases colorspace : off = 0x14
  · simp [hostWrite, busy, colorspace, extractLsb_low_byte]
  · simp [hostWrite, notCtrl, width, height, channels, colorspace]

/-- Settles O48: the write is legal, and its offset is not CTRL's. -/
theorem configurationWrites : Obligations.ConfigurationWrites := by
  intro off v s aligned inWindow notCtrl
  rw [move_write aligned inWindow, hostWrite_of_ne_ctrl notCtrl]

/-- IRQ_EN is bit 3 and MODE bit 1 (R251). -/
theorem ctrlWord_toNat (s : State) :
    (ctrlWord s).toNat = (if s.ctrlIrqEn then 8 else 0) + (if s.ctrlMode = .decode then 2 else 0) := by
  unfold ctrlWord
  cases s.ctrlIrqEn <;> cases s.ctrlMode <;> rfl

theorem count_lowHalf_toNat (c : Count) : (c.extractLsb 31 0).toNat = c.toNat % 2 ^ 32 := by
  simp

theorem count_highHalf_toNat (c : Count) : (c.extractLsb 63 32).toNat = c.toNat / 2 ^ 32 := by
  have bound := c.isLt
  rw [BitVec.extractLsb_toNat, Nat.shiftRight_eq_div_pow]
  omega

/-- A byte register reads as its value, with zeros above (R251). -/
theorem byte_setWidth_toNat (b : Byte) : (b.setWidth 32).toNat = b.toNat :=
  BitVec.toNat_setWidth_of_le (by decide)

theorem hostRead_of_reserved {off : Nat} (s : State) (reserved : 0x28 ≤ off) : hostRead off s = 0 := by
  unfold hostRead
  repeat rw [if_neg (by omega)]

/-- Settles O50: the read goes to the record, and each offset returns its register. -/
theorem registerReads : Obligations.RegisterReads := by
  intro off s aligned inWindow
  refine ⟨move_read aligned inWindow s, ?_, ?_, ?_, ?_, ?_, ?_, ?_, ?_, ?_, hostRead_of_reserved s⟩
  all_goals rintro rfl
  · exact ctrlWord_toNat s
  · rfl
  · rfl
  · exact byte_setWidth_toNat s.channels
  · exact byte_setWidth_toNat s.colorspace
  · exact count_lowHalf_toNat s.pixcnt
  · exact count_highHalf_toNat s.pixcnt
  · exact count_lowHalf_toNat s.bytecnt
  · exact count_highHalf_toNat s.bytecnt

/-! ### The streams -/

theorem kindMatches_iff {m : JobMode} {t : InToken} : kindMatches m t = true ↔
    t = .eos ∨ (∃ p, t = .pixel p ∧ m = .encode) ∨ (∃ b, t = .byte b ∧ m = .decode) := by
  cases t with
  | eos => simp [kindMatches]
  | pixel p => cases m <;> simp [kindMatches]
  | byte b => cases m <;> simp [kindMatches]

/-- A push is enabled: the block is BUSY, IN has a free place, and the token is of the job's kind (R254). -/
def PushEnabled (t : InToken) (s : State) : Prop :=
  s.state = .busy ∧ s.inq.length < Config.inDepth ∧ kindMatches s.jobMode t = true

theorem hostPush_of_enabled {t : InToken} {s : State} (enabled : PushEnabled t s) :
    hostPush t s = .next { s with inq := s.inq ++ [t] } := by
  obtain ⟨busy, free, kind⟩ := enabled
  rw [hostPush, if_neg (not_not_intro busy), if_neg (Nat.not_le_of_lt free), if_neg (by simp [kind])]

theorem hostPush_of_not_enabled {t : InToken} {s : State} (disabled : ¬PushEnabled t s) :
    ∃ w, hostPush t s = .refused w := by
  unfold hostPush
  split
  next => exact ⟨_, rfl⟩
  next busy =>
    split
    next => exact ⟨_, rfl⟩
    next free =>
      split
      next => exact ⟨_, rfl⟩
      next kind => exact absurd ⟨not_not.mp busy, Nat.lt_of_not_le free, by simpa using kind⟩ disabled

/-- Settles O52: the token kinds of R254 are those `kindMatches` lets through, so both clauses are about enabled
pushes. -/
theorem pushAppendsOrIsRefused : Obligations.PushAppendsOrIsRefused := by
  intro t s
  rw [← kindMatches_iff, move_host]
  exact ⟨fun enabled => hostPush_of_enabled (s := { s with turns := [] }) enabled,
    fun disabled => hostPush_of_not_enabled (s := { s with turns := [] }) disabled⟩

theorem hostPop_cons {s : State} {t : OutToken} {rest : List OutToken} (out : s.out = t :: rest) :
    hostPop s = .next { s with out := rest, popped := s.popped ++ [t] } := by
  simp only [hostPop, out]

theorem hostPop_nil {s : State} (out : s.out = []) : hostPop s = .refused .popWhileEmpty := by
  simp only [hostPop, out]

/-- Settles O53: OUT has an oldest token, or is empty and the pop is refused. -/
theorem popTakesTheOldest : Obligations.PopTakesTheOldest := by
  intro s
  rw [move_host]
  exact ⟨fun t rest out => hostPop_cons (s := { s with turns := [] }) out,
    fun out => hostPop_nil (s := { s with turns := [] }) out⟩

end Sys2Proof.Machine
end

section
/-! PROOFS. Errors (spec/60_exceptions.md): what a failing step of the block leaves (R275), which of the host's moves
raise an error (R272), how an ERROR state is left, and that a START forgets the job that ended in one (R277). -/

namespace Sys2Proof.Machine

/-! ### The block's steps -/

/-- EOS is the only error of an encode job; a commit leaves the job running, and a finish leaves it DONE. -/
theorem encoderStep_error {tok : InToken} {s t : State} (busy : s.state = .busy)
    (stepped : encoderStep tok s = .next t) (failed : t.state = .error) : t = raiseError .inputShort s := by
  cases tok with
  | eos => exact (Host.Outcome.next.inj stepped).symm
  | byte b => cases stepped
  | pixel p =>
    obtain ⟨e, raised⟩ | ⟨bs, formatted, -⟩ := takePixel_bytes s.prev s.cache s.run.toNat (isLastPixel s) p
    · simp [encoderStep, raised] at stepped
    · simp only [encoderStep, formatted] at stepped
      cases stepped
      split at failed
      next => cases failed
      next => cases busy.symm.trans failed

/-- A chunk of a running job fails only as a RUN past the pixels owed (R225), and the driver then adds nothing. -/
theorem commitChunk_exec_error {op : Vector Byte 5} {i : Instr} {s t : State} (busy : s.state = .busy)
    (stepped : commitChunk op (exec i s) = .next t) (failed : t.state = .error) : t = raiseError .pixelCount s := by
  obtain ⟨u, ran, ⟨running, rfl⟩ | ⟨-, rfl⟩⟩ := commitChunk_next stepped
  · cases running.symm.trans failed
  · obtain ⟨q, n, slots, rfl, -⟩ | ⟨-, raised⟩ := exec_next_cases ran
    · cases busy.symm.trans failed
    · exact raised

/-- The cases are those of `decoderStep_cases`: an error is raised by the driver or by the chunk it runs. -/
theorem decoderStep_error {tok : InToken} {s t : State} (busy : s.state = .busy)
    (stepped : decoderStep tok s = .next t) (failed : t.state = .error) : ∃ e, e ≠ .none ∧ t = raiseError e s := by
  obtain ⟨p, -, refused⟩ | ⟨e, isError, raised⟩ | ⟨k, b, more, -, taken⟩ | ⟨b, hd, -, -, accepted⟩ |
    ⟨k, b, more, -, -, taken⟩ | ⟨k, op, -, executed⟩ | ⟨k, more, -, taken⟩ | ⟨k, -, completed⟩ :=
    decoderStep_cases tok s
  · cases refused.symm.trans stepped
  · exact ⟨e, isError, Host.Outcome.next.inj (stepped.symm.trans raised)⟩
  · cases taken.symm.trans stepped
    cases busy.symm.trans failed
  · cases accepted.symm.trans stepped
    cases busy.symm.trans failed
  · cases taken.symm.trans stepped
    cases busy.symm.trans failed
  · exact ⟨.pixelCount, by decide, commitChunk_exec_error busy (executed.symm.trans stepped) failed⟩
  · cases taken.symm.trans stepped
    cases busy.symm.trans failed
  · cases completed.symm.trans stepped
    cases failed

/-- Settles O40: the failing step of either driver is the error entry, on the state with the token popped. -/
theorem errorsArePrecise : Obligations.ErrorsArePrecise := by
  intro s t busy stepped failed
  obtain idle | ⟨tok, rest, inq, -, -, job⟩ := blockStep_cases stepped
  · cases idle
    cases busy.symm.trans failed
  · obtain ⟨e, isError, entered⟩ : ∃ e, e ≠ .none ∧ t = raiseError e { s with inq := rest } := by
      obtain ⟨-, -, encoder⟩ | ⟨-, decoder⟩ := job
      · exact ⟨.inputShort, by decide, encoderStep_error busy encoder.symm failed⟩
      · exact decoderStep_error busy decoder.symm failed
    exact ⟨tok, rest, e, inq, isError, entered⟩

/-! ### START -/

theorem startJob_encode {s : State} (mode : s.ctrlMode = .encode) : startJob s = encoderStart (jobInit s) := by
  simp only [startJob, mode]

theorem startJob_decode {s : State} (mode : s.ctrlMode = .decode) : startJob s = jobInit s := by
  simp only [startJob, mode]

theorem modeOf_eq_encode_iff {b : Bool} : modeOf b = .encode ↔ b = false := by
  cases b <;> decide

/-- A START fails only as an encode START whose configuration fails the header check (R196). -/
theorem startJob_error {s : State} (failed : (startJob s).state = .error) :
    s.ctrlMode = .encode ∧ ∃ e, headerCheck (configHeader s) = .raised e ∧ startJob s = raiseError e (jobInit s) := by
  cases mode : s.ctrlMode with
  | decode =>
    rw [startJob_decode mode] at failed
    cases failed
  | encode =>
    rw [startJob_encode mode] at failed ⊢
    cases result : headerEncode (configHeader (jobInit s)) with
    | ok bytes =>
      rw [encoderStart_ok result] at failed
      cases failed
    | raised e => exact ⟨rfl, e, headerEncode_raised result, encoderStart_raised result⟩

/-- What a job's initialisation keeps: CTRL, the configuration registers, the moves to come and the host's reads. -/
theorem jobInit_congr {s t : State} (mode : s.ctrlMode = t.ctrlMode) (irqEn : s.ctrlIrqEn = t.ctrlIrqEn)
    (config : configHeader s = configHeader t) (turns : s.turns = t.turns) (reads : s.reads = t.reads) :
    jobInit s = jobInit t := by
  obtain ⟨width, height, channels, colorspace⟩ := Header.mk.inj config
  simp only [jobInit, mode, irqEn, width, height, channels, colorspace, turns, reads]

/-- START sees the state only through the job's initialisation. -/
theorem startJob_eq_of_jobInit_eq {s t : State} (init : jobInit s = jobInit t) : startJob s = startJob t := by
  have mode : s.ctrlMode = t.ctrlMode := by simpa using congrArg State.ctrlMode init
  simp only [startJob, mode, init]

theorem hostMove_start {v : Word32} {s : State} (start : v.getLsbD 0 = true) (notBusy : s.state ≠ .busy) :
    hostMove (.write 4 0x00 v) s =
      .next (startJob { s with ctrlMode := modeOf (v.getLsbD 1), ctrlIrqEn := v.getLsbD 3 }) :=
  congrArg Host.Outcome.next (writeCtrl_start v s start notBusy)

/-- Settles O46: the CTRL write gives both states the same MODE and IRQ_EN, so they have the same initialisation. -/
theorem startForgetsTheEarlierJob : Obligations.StartForgetsTheEarlierJob := by
  intro v s t start sNotBusy tNotBusy width height channels colorspace turns reads
  have config : configHeader s = configHeader t := by
    simp only [configHeader, width, height, channels, colorspace]
  rw [hostMove_start start sNotBusy, hostMove_start start tNotBusy]
  exact congrArg Host.Outcome.next (startJob_eq_of_jobInit_eq (jobInit_congr rfl rfl config turns reads))

/-! ### The job state under the host's moves -/

/-- A host move that changes the job state is a START, or it gives IDLE as an ACK or a reset. -/
theorem hostMove_state_cases {e : HostEvent} {s t : State} (moved : hostMove e s = .next t) :
    t.state = s.state ∨
    (∃ v, e = .write 4 0 v ∧ v.getLsbD 0 = true ∧ s.state ≠ .busy ∧
      t = startJob { s with ctrlMode := modeOf (v.getLsbD 1), ctrlIrqEn := v.getLsbD 3 }) ∨
    (t.state = .idle ∧ (e = .reset ∨ ∃ v, e = .write 4 0 v ∧ v.getLsbD 2 = true)) := by
  obtain ⟨w, ht, c, cs, rfl⟩ | start | ⟨v, event, -, rfl⟩ | ⟨off, -, rfl⟩ | ⟨tok, -, -, -, -, rfl⟩ |
    ⟨tok, rest, -, -, rfl⟩ | ⟨event, rfl⟩ := hostMove_cases moved
  · exact .inl rfl
  · exact .inr (.inl start)
  · by_cases acked : v.getLsbD 2 = true ∧ (s.state = .done ∨ s.state = .error)
    · exact .inr (.inr ⟨if_pos acked, .inr ⟨v, event, acked.1⟩⟩)
    · exact .inl (if_neg acked)
  · exact .inl rfl
  · exact .inl rfl
  · exact .inl rfl
  · exact .inr (.inr ⟨rfl, .inl event⟩)

/-- Settles O41: a move that enters ERROR is a START that fails, and a START fails with an error of the header check. -/
theorem hostMovesRaiseOnlyAtStart : Obligations.HostMovesRaiseOnlyAtStart := by
  intro e s t moved noError failed
  obtain kept | ⟨v, event, start, notBusy, rfl⟩ | ⟨idle, -⟩ := hostMove_state_cases moved
  · exact absurd (kept.symm.trans failed) noError
  · obtain ⟨mode, code, raised, entered⟩ := startJob_error failed
    rw [entered]
    exact ⟨v, event, start, modeOf_eq_encode_iff.mp mode, notBusy, mode, (headerCheck_raised raised).2⟩
  · cases idle.symm.trans failed

/-- A step is the block's or the move of the host that the plan names first. -/
theorem step_cases (s : State) :
    (∃ ts, step s = blockStep { s with turns := ts }) ∨
    ∃ e ts, s.turns = .host e :: ts ∧ step s = hostMove e { s with turns := ts } :=
  match plan : s.turns with
  | [] => .inl ⟨[], step_block s [] (.inl ⟨plan, rfl⟩)⟩
  | .block :: ts => .inl ⟨ts, step_block s ts (.inr plan)⟩
  | .host e :: ts => .inr ⟨e, ts, rfl, step_host s e ts plan⟩

/-- Settles O42: the block has no step in an ERROR state, so the step is a host move that changes the job state. -/
theorem errorIsLeftOnlyByTheHost : Obligations.ErrorIsLeftOnlyByTheHost := by
  intro s t error stepped left
  obtain ⟨ts, block⟩ | ⟨e, ts, plan, host⟩ := step_cases s
  · have notBusy : s.state ≠ .busy := by simp [error]
    have idle := noStepUnlessEnabled { s with turns := ts } (.inl notBusy)
    cases idle.symm.trans (block.symm.trans stepped)
    exact absurd error left
  · refine ⟨e, ts, plan, ?_⟩
    obtain kept | ⟨v, event, start, -⟩ | ⟨-, reset | ⟨v, event, ack⟩⟩ :=
      hostMove_state_cases (host.symm.trans stepped)
    · exact absurd (kept.trans error) left
    · exact .inr ⟨v, event, .inl start⟩
    · exact .inl reset
    · exact .inr ⟨v, event, .inr ack⟩

end Sys2Proof.Machine
end

section
/-! PROOFS. The decoder and the encoder as each other's inverses (spec/30_encoding.md R84 to R94), and the assembler's
REPEAT (R98). -/

namespace Sys2Proof

/-! ### The round trip -/

/-- Settles O3: each kind's fields are read back by `decode_encode_append`. -/
theorem decodeOfEncodeIsTheChunk : Obligations.DecodeOfEncodeIsTheChunk :=
  fun _ rest wf => decode_encode_append wf rest

theorem decode_of_encode_eq {i : Instr} {bs : List Byte} (wf : i.wellFormed = true) (bytes : encode i = bs) :
    decode bs = .chunk i [] :=
  bytes ▸ decode_encode wf

/-- Settles O2: each word is its chunk's encoding. -/
theorem sourceWordsDecode : Obligations.SourceWordsDecode :=
  ⟨decode_of_encode_eq rfl (by decide), decode_of_encode_eq rfl (by decide), decode_of_encode_eq rfl (by decide),
    decode_of_encode_eq rfl (by decide), decode_of_encode_eq rfl rfl, decode_of_encode_eq rfl rfl⟩

/-- The chunk in a buffer encodes to the bytes of the buffer that are its own. -/
theorem encode_decodeChunk (b0 b1 b2 b3 b4 : Byte) :
    encode (decodeChunk b0 b1 b2 b3 b4) = b0 :: [b1, b2, b3, b4].take (chunkLength b0 - 1) := by
  cases kind : kindOf b0 with
  | rgb =>
    rw [rgb_byte_eq b0 kind]
    rfl
  | rgba =>
    rw [rgba_byte_eq b0 kind]
    rfl
  | index =>
    simp only [decodeChunk, chunkLength, kind, encode, index_byte_eq b0 kind]
    rfl
  | diff =>
    simp only [decodeChunk, chunkLength, kind, encode, diff_byte_eq b0 kind]
    rfl
  | luma =>
    have difference (dg f : Int) : dg + (f - 8) - dg + 8 = f := by omega
    simp only [decodeChunk, chunkLength, kind, encode, luma_byte_eq b0 kind, difference, nibble_byte_eq b1]
    rfl
  | run =>
    simp only [decodeChunk, chunkLength, kind, encode, (run_byte_eq b0 kind).1]
    rfl

/-- Where the bytes suffice, the buffer that `decode` fills holds the bytes themselves. -/
theorem take_getD {n : Nat} {bs : List Byte} (atMost : n ≤ 4) (enough : n ≤ bs.length) :
    [bs.getD 0 0, bs.getD 1 0, bs.getD 2 0, bs.getD 3 0].take n = bs.take n := by
  refine List.ext_getElem (by simp; omega) fun k inBuffer inBytes => ?_
  have below : k < n := (List.length_take_le _ _).trans_lt' inBytes
  rw [List.getElem_take, List.getElem_take]
  match k with
  | 0 | 1 | 2 | 3 => exact List.getD_eq_getElem _ _ (by omega)
  | k + 4 => omega

/-- The decoder splits the bytes after the first where the chunk ends. -/
theorem encode_append_rest {b0 : Byte} {bs : List Byte} (enough : chunkLength b0 ≤ bs.length + 1) :
    encode (decodeChunk b0 (bs.getD 0 0) (bs.getD 1 0) (bs.getD 2 0) (bs.getD 3 0)) ++
      bs.drop (chunkLength b0 - 1) = b0 :: bs := by
  have atMost := chunkLength_le_five b0
  rw [encode_decodeChunk, take_getD (by omega) (by omega), List.cons_append, List.take_append_drop]

theorem decode_truncated {b0 : Byte} {bs : List Byte} (short : bs.length + 1 < chunkLength b0) :
    decode (b0 :: bs) = .rejected (.truncated (kindOf b0)) :=
  if_pos short

/-- Settles O4: only a list that is long enough is read, and what is read is the chunk in its first bytes. -/
theorem encodeOfDecodeIsTheBytes : Obligations.EncodeOfDecodeIsTheBytes := by
  intro bs i rest decoded
  cases bs with
  | nil => cases decoded
  | cons b0 bs =>
    obtain short | enough := Nat.lt_or_ge (bs.length + 1) (chunkLength b0)
    · cases (decode_truncated short).symm.trans decoded
    · cases (decode_cons b0 bs enough).symm.trans decoded
      exact ⟨Machine.wellFormed_decodeChunk _ _ _ _ _, encode_append_rest enough⟩

/-- Settles O5: the decoder compares the number of bytes with the length that the first byte gives, and tests nothing
else. -/
theorem onlyMissingBytesAreRejected : Obligations.OnlyMissingBytesAreRejected :=
  ⟨rfl, fun b0 bs => ⟨decode_truncated, fun enough => ⟨_, decode_cons b0 bs enough⟩⟩⟩

end Sys2Proof

namespace Sys2Proof.Machine

/-! ### REPEAT -/

theorem wellFormed_of_mem_expandRepeat {n : Nat} {i : Instr} (member : i ∈ expandRepeat n) : i.wellFormed = true := by
  obtain full | rest := List.mem_append.mp member
  · rw [List.eq_of_mem_replicate full]
    rfl
  · split at rest
    next => cases rest
    next left =>
      rw [List.mem_singleton.mp rest, wellFormed_run_iff]
      omega

/-- The RUNs of REPEAT n count to n, in any measure that gives a RUN its count. -/
theorem sum_map_expandRepeat {count : Instr → Nat} (count_run : ∀ k, count (.run k) = k) (n : Nat) :
    ((expandRepeat n).map count).sum = n := by
  have division : n / 62 * 62 + n % 62 = n := Nat.div_add_mod' n 62
  rw [expandRepeat, List.map_append, List.sum_append, List.map_replicate, List.sum_replicate_nat, count_run]
  split
  next whole => simpa [whole] using division
  next => simpa [count_run] using division

/-- Settles O6: the RUN after the full ones is there exactly when the division leaves a remainder. -/
theorem repeatIsRunsOfTheCount : Obligations.RepeatIsRunsOfTheCount := by
  intro n _
  refine ⟨_, rfl, ?_, fun _ => wellFormed_of_mem_expandRepeat, sum_map_expandRepeat (fun _ => rfl) n⟩
  split
  next whole => exact .inl ⟨whole, rfl⟩
  next left => exact .inr ⟨left, rfl⟩

end Sys2Proof.Machine
end

section
/-! PROOFS. The error codes (spec/60_exceptions.md R271), the IRQ line (spec/10_state.md R46) and reset
(spec/70_reset_and_hazards.md R300). -/

namespace Sys2Proof.Machine

/-! ### The error codes -/

/-- The codes are listed in the order of their numbers. -/
theorem codeBits_toNat (e : ErrCode) : (codeBits e).toNat = e.ctorIdx := by
  cases e <;> rfl

theorem codeBits_injective {e f : ErrCode} (same : codeBits e = codeBits f) : e = f := by
  have place : e.ctorIdx = f.ctorIdx := by rw [← codeBits_toNat, ← codeBits_toNat, same]
  rw [← ErrCode.ofNat_ctorIdx e, ← ErrCode.ofNat_ctorIdx f, place]

theorem codeBits_le_twelve (e : ErrCode) : (codeBits e).toNat ≤ 12 := by
  cases e <;> decide

/-- Settles O43: the table is read off the definitions, and a code is known by its number. -/
theorem errorCodeTable : Obligations.ErrorCodeTable :=
  ⟨rfl, rfl, rfl, rfl, rfl, rfl, rfl, rfl, rfl, rfl, rfl, rfl, rfl, codeBits_le_twelve, fun _ _ => codeBits_injective⟩

/-! ### The IRQ line -/

theorem irq_iff {s : State} : irq s = true ↔ s.ctrlIrqEn = true ∧ (s.state = .done ∨ s.state = .error) := by
  rw [irq, Bool.and_eq_true, decide_eq_true_eq]

theorem irq_eq_false_of_disabled {s : State} (disabled : s.ctrlIrqEn = false) : irq s = false := by
  rw [irq, disabled, Bool.false_and]

theorem irq_eq_false_of_not_ended {s : State} (notDone : s.state ≠ .done) (notError : s.state ≠ .error) :
    irq s = false :=
  Bool.eq_false_iff.mpr fun raised => (irq_iff.mp raised).2.elim notDone notError

theorem ackJob_not_ended (s : State) : (ackJob s).state ≠ .done ∧ (ackJob s).state ≠ .error := by
  rw [ackJob_eq]
  cases state : s.state <;> simp

@[simp] theorem ackJob_ctrlIrqEn (s : State) : (ackJob s).ctrlIrqEn = s.ctrlIrqEn := by
  rw [ackJob_eq]

@[simp] theorem startJob_ctrlIrqEn (s : State) : (startJob s).ctrlIrqEn = s.ctrlIrqEn := by
  cases mode : s.ctrlMode with
  | decode => rw [startJob_decode mode, jobInit_ctrlIrqEn]
  | encode =>
    rw [startJob_encode mode]
    cases result : headerEncode (configHeader (jobInit s)) with
    | ok bytes => rw [encoderStart_ok result, jobInit_ctrlIrqEn]
    | raised e => rw [encoderStart_raised result, raiseError_ctrlIrqEn, jobInit_ctrlIrqEn]

/-- Whatever else a CTRL write does, IRQ_EN takes its bit 3 (R250). -/
theorem writeCtrl_ctrlIrqEn (v : Word32) (s : State) : (writeCtrl v s).ctrlIrqEn = v.getLsbD 3 := by
  by_cases start : v.getLsbD 0 = true ∧ s.state ≠ .busy
  · rw [writeCtrl_start v s start.1 start.2, startJob_ctrlIrqEn]
  · rw [writeCtrl, if_neg start]
    split
    · exact ackJob_ctrlIrqEn _
    · rfl

/-- Settles O55: an ACK and a decode START leave a job state that raises no interrupt, and a write that clears IRQ_EN
masks every state. -/
theorem irqLine : Obligations.IrqLine := by
  intro s
  refine ⟨irq_iff, rfl, rfl, fun v => ⟨fun noStart ack => ?_, fun disabled => ?_, fun start decode notBusy => ?_⟩⟩
  · have written : hostWrite 0x00 v s = _ := writeCtrl_no_start v s (.inl noStart)
    rw [written, if_pos ack]
    obtain ⟨notDone, notError⟩ := ackJob_not_ended _
    exact irq_eq_false_of_not_ended notDone notError
  · exact irq_eq_false_of_disabled ((writeCtrl_ctrlIrqEn v s).trans disabled)
  · have written : hostWrite 0x00 v s = _ := writeCtrl_start v s start notBusy
    rw [written, startJob_decode (by rw [decode]; rfl)]
    exact irq_eq_false_of_not_ended (by simp) (by simp)

/-! ### Reset -/

/-- Settles O56: the move is the reset event, which keeps only the host's side. -/
theorem resetSetsEverything : Obligations.ResetSetsEverything :=
  move_host .reset

/-- Settles O57: the state after reset is the one that the reset event leaves, and each word a read can return is 0
in it. -/
theorem resetMeetsTheInvariant : Obligations.ResetMeetsTheInvariant := by
  refine ⟨inv_resetBlock State.reset, fun off _ _ => ?_⟩
  have ctrl : ctrlWord State.reset = 0 := rfl
  have status : statusWord State.reset = 0 := rfl
  simp only [hostRead, ctrl, status]
  simp [State.reset]

end Sys2Proof.Machine
end
